-- ==== Sys2Proof/Word.lean ====
section
/-! DEFINITION. The one word of CORE: a byte. -/

namespace Sys2Proof

/-- A byte: 8 bits, bit 0 the least significant (R10). Every register, memory cell, immediate, address
and the program counter is one, and every one of them is read as an unsigned number in 0..255 (`BitVec.toNat`):
"No value in this machine is ever read as signed." -/
abbrev Byte := BitVec 8

end Sys2Proof
end

