-- ==== Sys2Proof/Machine/RunState.lean ====
section
/-! DEFINITION. The run state, the fault reasons and the fault record of CORE (10_state.md R33, R35; 60_exceptions.md
R201 to R204). -/

namespace Sys2Proof.Machine

/-- The complete list of fault reasons (R201). They have names and no numbers (R202). -/
inductive FaultReason
  /-- Loader: the program resource cannot be opened. -/
  | programNotFound
  /-- Loader: a line's remaining content is no base-2 literal in [0,255]. -/
  | malformedProgram
  /-- Loader: the image has more than 256 bytes. -/
  | programTooLarge
  /-- Step, at dispatch: the byte at the PC is none of the thirteen opcodes. -/
  | unknownOpcode
  /-- ALU: an operation tag other than ADD, SUB, MUL, COMPARE; no instruction passes one (R146). -/
  | unsupportedOperation
  /-- Step, after operand fetch: a register operand byte is above 7. -/
  | invalidRegister
  /-- Step: an operand address, the next sequential PC or a return address is above 255. -/
  | pcOutOfRange
  /-- PUSH, CALL, POP, RET: the stack pointer would leave 0..255. -/
  | stackFault
  deriving DecidableEq, Repr

/-- The run state (R33). `halted` and `faulted` are terminal. -/
inductive RunState
  | running
  | halted
  | faulted (reason : FaultReason)
  deriving DecidableEq, Repr

/-- The fault record (R35, R204): the reason, the PC of the faulting instruction and the opcode byte fetched there.
A Loader fault fetched no instruction: PC 0 and no IR. -/
structure FaultRecord where
  reason : FaultReason
  pc     : Byte
  ir     : Option Byte
  deriving DecidableEq, Repr

/-- The typed termination result of step and run (R41, R120). -/
inductive Termination
  | halted
  | faulted (reason : FaultReason)
  deriving DecidableEq, Repr

end Sys2Proof.Machine
end

