-- ==== Sys2Proof/Config.lean ====
section
/-! DEFINITION. What is fixed for the machine (00_scope.md R8) and the free values: what the spec leaves open and
nothing in Lean can evaluate. The parameters a test could show wrong (opcode bytes, reset values, flag positions) stand
in Decode.lean and Machine/Params.lean. -/

namespace Sys2Proof

/-- `MEM_SIZE`: the number of memory cells, "Never resized" (R8, R50). -/
def Config.memSize : Nat := 256

/-- `NREGS`: the number of general registers (R8, R22). -/
def Config.nregs : Nat := 8

/-- FREE VALUE (log 17). The byte a cell holds after the load of `program` failed (`none`: the resource could not be
opened): "nothing may rely on it" (R264, U10). -/
opaque Config.failedLoadByte : (program : Option (List Char)) → (address : Nat) → Byte

/-- FREE VALUE (log 16). Whether a program text that has both a malformed line and more than 256 literals is reported as
too large: R264 and R265 each apply and the spec gives no order between Loader faults. -/
opaque Config.reportsTooLargeFirst : (text : List Char) → Bool

/-- FREE VALUE (log 18). One less than the exit status the command-line host gives for a fault: "any value other than 0"
(R267, U15). -/
opaque Config.faultExitStatusPred : Machine.FaultReason → Option Machine.FaultRecord → Nat

end Sys2Proof
end

