-- ==== Sys2Proof/Syntax.lean ====
section
/-! DEFINITION. The syntax of the thirteen instructions (00_scope.md R2), one constructor for each row of
spec/opcode_table.json. -/

namespace Sys2Proof

/-- An instruction as its bytes give it: the handler the opcode selects and its operand bytes, in the order of the
"Operands" column of R82. `r`, `a`, `b` are REGISTER OPERAND BYTES: a byte above 7 "selects the same instruction and then
faults with `InvalidRegister`; it does not select another instruction" (R93), so it is a term of this type, ill-formed
(WellFormed.lean), and its meaning takes that fault (log 20). -/
inductive Instr
  /-- Load immediate (R130). -/
  | ldi (r imm8 : Byte)
  /-- Print register (R132). -/
  | prn (r : Byte)
  /-- Halt (R134). -/
  | hlt
  /-- Add register `b` into register `a` (R145). -/
  | add (a b : Byte)
  /-- Multiply register `a` by register `b` (R147). -/
  | mul (a b : Byte)
  /-- Push a register (R160). -/
  | push (r : Byte)
  /-- Pop into a register (R162). -/
  | pop (r : Byte)
  /-- Call the address in a register (R170). -/
  | call (r : Byte)
  /-- Return (R172). -/
  | ret
  /-- Compare two registers (R149). -/
  | cmp (a b : Byte)
  /-- Jump to the address in a register (R174). -/
  | jmp (r : Byte)
  /-- Jump if EQUAL is set (R176). -/
  | jeq (r : Byte)
  /-- Jump if EQUAL is clear (R178). -/
  | jne (r : Byte)
  deriving DecidableEq, Repr

end Sys2Proof
end

