-- ==== Sys2Proof/Decode.lean ====
section
/-! DEFINITION. The Dispatch Table, the decoder (total on any bytes, rejecting by name) and the encoder
(30_encoding.md R80 to R93). -/

namespace Sys2Proof

/-- Handler identities: the values of the Dispatch Table (R14, R38). -/
inductive Handler
  | ldi | prn | hlt | add | mul | push | pop | call | ret | cmp | jmp | jeq | jne
  deriving DecidableEq, Repr

/-- The thirteen opcode byte values `OP_LDI` ... `OP_JNE` (R86; the spec's decision D1, log 1). -/
def Handler.opcode : Handler → Byte
  | .ldi  => 0b10000010#8
  | .prn  => 0b01000111#8
  | .hlt  => 0b00000001#8
  | .add  => 0b10100000#8
  | .mul  => 0b10100010#8
  | .push => 0b01000101#8
  | .pop  => 0b01000110#8
  | .call => 0b01010000#8
  | .ret  => 0b00010001#8
  | .cmp  => 0b10100111#8
  | .jmp  => 0b01010100#8
  | .jeq  => 0b01010101#8
  | .jne  => 0b01010110#8

/-- The width in bytes of each instruction (R82). -/
def Handler.width : Handler → Nat
  | .ldi  => 3
  | .prn  => 2
  | .hlt  => 1
  | .add  => 3
  | .mul  => 3
  | .push => 2
  | .pop  => 2
  | .call => 2
  | .ret  => 1
  | .cmp  => 3
  | .jmp  => 2
  | .jeq  => 2
  | .jne  => 2

/-- The thirteen handlers, in the order of the source's table (R2). -/
def Handler.all : List Handler :=
  [.ldi, .prn, .hlt, .add, .mul, .push, .pop, .call, .ret, .cmp, .jmp, .jeq, .jne]

/-- The Dispatch Table: a byte selects the handler whose opcode it equals, "decode is by equality of the whole opcode
byte" (R86), and every other byte is unknown (R88, conflict C1). -/
def dispatchTable (ir : Byte) : Option Handler := Handler.all.find? fun h => h.opcode == ir

/-- How many bytes a fetch that finds `ir` at the PC reads: the width of the handler selected (R80, R114); after an
unknown opcode no operand byte is read (R89, R113). -/
def fetchLength (ir : Byte) : Nat :=
  match dispatchTable ir with
  | some h => h.width
  | none => 1

/-- Why bytes are no instruction. -/
inductive DecodeError
  /-- There is no byte at all. Safe: no fetch gives it, the PC being in 0..255 (R112; log 26). -/
  | noOpcodeByte
  /-- The first byte is no opcode (R88). -/
  | unknownOpcode (ir : Byte)
  /-- The bytes end before the operand bytes of the instruction selected do (R114). -/
  | missingOperand (ir : Byte)
  deriving DecidableEq, Repr

/-- The instruction of a handler and the bytes after its opcode: first listed operand first (R83). `none`: too few bytes. -/
def Handler.assemble : Handler → List Byte → Option Instr
  | .ldi,  opA :: opB :: _ => some (.ldi opA opB)
  | .prn,  opA :: _        => some (.prn opA)
  | .hlt,  _               => some .hlt
  | .add,  opA :: opB :: _ => some (.add opA opB)
  | .mul,  opA :: opB :: _ => some (.mul opA opB)
  | .push, opA :: _        => some (.push opA)
  | .pop,  opA :: _        => some (.pop opA)
  | .call, opA :: _        => some (.call opA)
  | .ret,  _               => some .ret
  | .cmp,  opA :: opB :: _ => some (.cmp opA opB)
  | .jmp,  opA :: _        => some (.jmp opA)
  | .jeq,  opA :: _        => some (.jeq opA)
  | .jne,  opA :: _        => some (.jne opA)
  | _,     _               => none

/-- The decoder. The opcode is decoded first: an unknown opcode is rejected whatever follows it (R89). Bytes beyond the
instruction's own are not looked at (R63). -/
def decode : List Byte → Except DecodeError Instr
  | [] => .error .noOpcodeByte
  | ir :: rest =>
    match dispatchTable ir with
    | none => .error (.unknownOpcode ir)
    | some h =>
      match h.assemble rest with
      | none => .error (.missingOperand ir)
      | some i => .ok i

/-- The handler that runs an instruction. -/
def Instr.handler : Instr → Handler
  | .ldi _ _ => .ldi
  | .prn _   => .prn
  | .hlt     => .hlt
  | .add _ _ => .add
  | .mul _ _ => .mul
  | .push _  => .push
  | .pop _   => .pop
  | .call _  => .call
  | .ret     => .ret
  | .cmp _ _ => .cmp
  | .jmp _   => .jmp
  | .jeq _   => .jeq
  | .jne _   => .jne

/-- The operand bytes of an instruction, in the order of their addresses (R81, R83). -/
def Instr.operandBytes : Instr → List Byte
  | .ldi r imm8 => [r, imm8]
  | .prn r      => [r]
  | .hlt        => []
  | .add a b    => [a, b]
  | .mul a b    => [a, b]
  | .push r     => [r]
  | .pop r      => [r]
  | .call r     => [r]
  | .ret        => []
  | .cmp a b    => [a, b]
  | .jmp r      => [r]
  | .jeq r      => [r]
  | .jne r      => [r]

/-- The encoder: the opcode byte, then the operand bytes at ascending addresses (R81). -/
def encode (i : Instr) : List Byte := i.handler.opcode :: i.operandBytes

/-- Byte `k` of an instruction numbered as spec/opcode_table.json numbers it: bit 0 of the number is the least
significant bit of the first byte. -/
def tableByte (nbits w k : Nat) : Byte := BitVec.ofNat 8 (w % 2 ^ nbits / 256 ^ k)

/-- The three bytes (the longest instruction) of a table word; the bits above `nbits` are 0. -/
def tableBytes (nbits w : Nat) : List Byte := [tableByte nbits w 0, tableByte nbits w 1, tableByte nbits w 2]

/-- The instruction the decoder reads from a table word, or none where it refuses. -/
def decodeTableWord (nbits w : Nat) : Option Instr :=
  match decode (tableBytes nbits w) with
  | .ok i => some i
  | .error _ => none

end Sys2Proof
end

