-- ==== Sys2Proof/Machine/Params.lean ====
section
/-! DEFINITION. The named parameters of R8 (00_scope.md) that an audit of the spec's literals may change: reset values,
the stack pointer's index, the places of the flags. -/

namespace Sys2Proof.Machine

/-- The index of a register, 0 to 7 (R22). -/
abbrev RegIndex := Fin Config.nregs

/-- `SP_INDEX`: register 7 is the stack pointer (R8, R24). -/
def spIndex : RegIndex := ⟨7, by decide⟩

/-- `SP_RESET` = 243 = 0xF3 (R8, R9; the source's literal is unaudited, log 3). -/
def spReset : Byte := 243#8

/-- `PC_RESET` = 0: the reset vector (R8, R232). -/
def pcReset : Byte := 0#8

/-- `REG_RESET` = 0: registers 0 to 6 at reset (R8, R45; the spec's decision D6, log 2). -/
def regReset : Byte := 0#8

/-- `FL_RESET` = 0 (R8, R32; the spec's decision D6, log 2). -/
def flReset : Byte := 0#8

/-- What a memory cell holds at reset: "zero-initialized" (R50, R231); so what an unlisted address reads as (R52). -/
def memReset : Byte := 0#8

/-- `FL_E`: EQUAL is bit 0 (R8, R30). -/
def flEBit : Nat := 0

/-- `FL_G`: GREATER is bit 1 (R8, R30). -/
def flGBit : Nat := 1

/-- `FL_L`: LESS is bit 2 (R8, R30). -/
def flLBit : Nat := 2

end Sys2Proof.Machine
end

