-- ==== Sys2Proof/Machine/State.lean ====
section
/-! DEFINITION. The state aggregate of CORE (10_state.md R20, R21), the reasons the interface's step can stop, and reset
(70_reset_and_hazards.md R230, R231). -/

namespace Sys2Proof.Machine

/-- Memory `M[0..255]` (R50) as the list of its cells that do not hold `memReset`, addresses rising (log 14). -/
abbrev Memory := List Host.Cell

/-- The canonical form: addresses strictly rising and inside 0..255, no cell equal to what an unlisted address reads as. -/
abbrev Memory.wf (m : Memory) : Prop :=
  m.Pairwise (fun c d => c.1 < d.1) ∧ ∀ c ∈ m, c.1 < Config.memSize ∧ c.2 ≠ memReset

/-- The whole state (R21). `SP` is register 7 and no cell of its own (R24); the instruction register is a transient of
one step and no state (R34). -/
structure State where
  /-- Memory (R50). -/
  mem    : Memory
  /-- The Register File, registers 0 to 7 (R22). -/
  regs   : Vector Byte Config.nregs
  /-- The program counter: between steps the address of the next opcode byte (R27). -/
  pc     : Byte
  /-- The Flags Register, bits 7:3 hardwired 0 (R30); written through `State.setFl` alone. -/
  fl     : Byte
  /-- The run state (R33). -/
  run    : RunState
  /-- The fault record, none before any fault (R35). -/
  record : Option FaultRecord
  /-- The output stream `Out`, oldest value first (R42). -/
  out    : List Byte
  deriving DecidableEq, Repr

/-- Why a step of the interface stops. A fault of the spec is NOT one of these: its entry is a next state whose run state
is `faulted` (log 4). These say that there is no step to take (R111, D15: "No step exists; state frozen until reset"). -/
inductive Fault
  /-- Raised by `step` in run state `Halted`. Safe: the hardware takes no step either. -/
  | noStepHalted
  /-- Raised by `step` in run state `Faulted(reason)`. Safe: the hardware takes no step either. -/
  | noStepFaulted (reason : FaultReason)
  deriving DecidableEq, Repr

/-- Why the model would give an instruction no meaning. -/
inductive Refusal
  /-- An arm of `exec` that has no meaning yet. Safe. No arm is left so: every instruction has its meaning. -/
  | notModelled (mnemonic : String)
  deriving DecidableEq, Repr

/-- What running an instruction answers. -/
abbrev Result := Host.Outcome State Fault Refusal

/-- The state after reset, before the Loader runs (R231). Reset is machine construction, the only reset there is: every
piece of state takes its reset value (R230). -/
def State.reset : State where
  mem    := []
  regs   := (Vector.replicate Config.nregs regReset).set spIndex spReset
  pc     := pcReset
  fl     := flReset
  run    := .running
  record := none
  out    := []

end Sys2Proof.Machine
end

