-- ==== Sys2Proof/Machine/Ops.lean ====
section
/-! DEFINITION. The named operations over memory, registers, output and run state (00_scope.md R11), and TAKING A FAULT,
the machine's only exceptional event (60_exceptions.md R200 to R211). There is no return from a fault: "The only way out
of `Faulted` or `Halted` is a reset by the host" (R212), which is `State.reset`. -/

namespace Sys2Proof.Machine

/-! ### Memory -/

/-- The byte at an address; an address that is not listed holds `memReset` (R52). -/
def Memory.readByte : Memory → Nat → Byte
  | [], _ => memReset
  | (k, v) :: m, a => if k = a then v else Memory.readByte m a

/-- Set the byte at an address and keep the canonical form: a cell that becomes `memReset` is not listed (R53). -/
def Memory.writeByte : Memory → Nat → Byte → Memory
  | [], a, v => if v = memReset then [] else [(a, v)]
  | (k, w) :: m, a, v =>
    if a < k then (if v = memReset then (k, w) :: m else (a, v) :: (k, w) :: m)
    else if a = k then (if v = memReset then m else (a, v) :: m)
    else (k, w) :: Memory.writeByte m a v

/-- `MemRead(addr, 1)` (R52): the address is a byte and so always in 0..255 (R60). -/
def State.memRead (s : State) (addr : Byte) : Byte := s.mem.readByte addr.toNat

/-- `MemWrite(addr, 1, v)` (R53): no cell is protected (R61). -/
def State.memWrite (s : State) (addr : Byte) (v : Byte) : State := { s with mem := s.mem.writeByte addr.toNat v }

/-! ### Registers, program counter, output, run state -/

/-- `x[i]` (R11, R22). -/
def State.reg (s : State) (i : RegIndex) : Byte := s.regs[i]

/-- `x[i] <- v` (R11, R22). Register 7 is written like any other and the stack pointer moves at once (R24). -/
def State.setReg (s : State) (i : RegIndex) (v : Byte) : State := { s with regs := s.regs.set i v }

/-- `SP` is another spelling of `x[7]` (R11, R24). -/
def State.sp (s : State) : Byte := s.reg spIndex

/-- `SP <- v` is `x[7] <- v` (R11, R24). -/
def State.setSp (s : State) (v : Byte) : State := s.setReg spIndex v

/-- `pc <- target` (R11). -/
def State.setPc (s : State) (target : Byte) : State := { s with pc := target }

/-- `Out(v)`: append one value to the output stream, which never refuses (R11, R42; log 10). -/
def State.emit (s : State) (v : Byte) : State := { s with out := s.out ++ [v] }

/-- `halt`: the run state becomes `Halted` (R11, R134). -/
def State.halt (s : State) : State := { s with run := .halted }

/-! ### The stack -/

/-- The cell a push writes: one below the stack pointer (R25, R160). -/
def State.pushAddr (s : State) : Byte := s.sp - 1#8

/-- `x[7] <- x[7] - 1`, before a push (R25). -/
def State.decSp (s : State) : State := s.setSp s.pushAddr

/-- `x[7] <- x[7] + 1`, after a pop (R25). -/
def State.incSp (s : State) : State := s.setSp (s.sp + 1#8)

/-- Write the top of the stack, `MemWrite(x[7], 1, v)` (R160, R170). -/
def State.storeTop (s : State) (v : Byte) : State := s.memWrite s.sp v

/-- Read the top of the stack, `MemRead(x[7], 1)` (R162, R172). Popped cells keep their value (R25). -/
def State.loadTop (s : State) : Byte := s.memRead s.sp

/-! ### Taking a fault -/

/-- Take a fault: the run state becomes `Faulted(reason)`, the record of (reason, pc, ir) is written, "and no other state
changes" (R203, R204, R211). -/
def State.takeFault (s : State) (reason : FaultReason) (ir : Byte) : State :=
  { s with run := .faulted reason, record := some ⟨reason, s.pc, some ir⟩ }

/-- Take a Loader fault: no instruction was fetched, the record holds the reason alone, with PC 0 and no IR (R204, R216). -/
def State.takeLoaderFault (s : State) (reason : FaultReason) : State :=
  { s with run := .faulted reason, record := some ⟨reason, 0#8, none⟩ }

/-- `raise <Fault>(pc, ir)` inside the handler `h`, whose opcode is the IR (R11, R117). -/
def raise (reason : FaultReason) (h : Handler) (s : State) : Result := .next (s.takeFault reason h.opcode)

end Sys2Proof.Machine
end

