-- ==== Sys2Proof/Machine/Flags.lean ====
section
/-! DEFINITION. The Flags Register (10_state.md R30 to R32) and the flag a comparison sets (42_alu.md R144). -/

namespace Sys2Proof.Machine

/-- The byte with one bit set. -/
def flagMask (bit : Nat) : Byte := 1#8 <<< bit

/-- The three bits of `FL` that exist; bits 7:3 are hardwired 0 (R30; the spec's decision D14, log 11). -/
def flMask : Byte := flagMask flEBit ||| flagMask flGBit ||| flagMask flLBit

/-- `FL <- v`: the one writer of the Flags Register; the hardwired bits stay 0 (R30). -/
def State.setFl (s : State) (v : Byte) : State := { s with fl := v &&& flMask }

/-- `FL.E`: bit 0 (R11, R30). -/
def State.flagE (s : State) : Bool := s.fl.getLsbD flEBit

/-- `FL.G`: bit 1 (R11, R30); no instruction reads it (R31). -/
def State.flagG (s : State) : Bool := s.fl.getLsbD flGBit

/-- `FL.L`: bit 2 (R11, R30); no instruction reads it (R31). -/
def State.flagL (s : State) : Bool := s.fl.getLsbD flLBit

/-- The flag of a comparison of two values as unsigned numbers: EQUAL, LESS or GREATER (R144; D20). -/
def compareFlag (x y : Byte) : Byte :=
  if x.toNat = y.toNat then flagMask flEBit
  else if x.toNat < y.toNat then flagMask flLBit
  else flagMask flGBit

end Sys2Proof.Machine
end

