-- ==== Sys2Proof/WellFormed.lean ====
section
/-! DEFINITION. Which instructions are well-formed: those whose register operand bytes name a register (30_encoding.md R84). -/

namespace Sys2Proof

/-- A register operand byte names a register: "only the values 0 to 7 name a register" (R84). -/
def namesRegister (operand : Byte) : Bool := decide (operand.toNat < Config.nregs)

/-- Every register operand names a register; the immediate of LDI is unrestricted (R85). -/
def Instr.wellFormed : Instr → Bool
  | .ldi r _ => namesRegister r
  | .prn r => namesRegister r
  | .hlt => true
  | .add a b => namesRegister a && namesRegister b
  | .mul a b => namesRegister a && namesRegister b
  | .push r => namesRegister r
  | .pop r => namesRegister r
  | .call r => namesRegister r
  | .ret => true
  | .cmp a b => namesRegister a && namesRegister b
  | .jmp r => namesRegister r
  | .jeq r => namesRegister r
  | .jne r => namesRegister r

end Sys2Proof
end

