-- ==== Sys2Proof/Machine/Operands.lean ====
section
/-! DEFINITION. The checks every instruction makes before its first write, in the order of 60_exceptions.md R208: register
operands, the stack's range, the next sequential PC. Each hands the value it checked to the rest of the instruction. -/

namespace Sys2Proof.Machine

/-- A register operand byte (R84, R115): it names register `x[v]` for `v` in 0..7; a byte above 7 raises `InvalidRegister`,
neither masked nor wrapped. -/
def withReg (h : Handler) (operand : Byte) (s : State) (k : RegIndex → Result) : Result :=
  if valid : operand.toNat < Config.nregs then k ⟨operand.toNat, valid⟩ else raise .invalidRegister h s

/-- Two register operand bytes: `opA` is checked before `opB` (R84, R115). -/
def withRegs (h : Handler) (opA opB : Byte) (s : State) (k : RegIndex → RegIndex → Result) : Result :=
  withReg h opA s fun a => withReg h opB s fun b => k a b

/-- The stack pointer's range check (R26, R209): `leaves` says that the pointer would leave 0..255. -/
def withStackRoom (h : Handler) (leaves : Bool) (s : State) (k : Result) : Result :=
  if leaves then raise .stackFault h s else k

/-- The sequential-PC check (R116): `npc = pc + w` as a mathematical integer; an instruction about to use it raises
`PcOutOfRange` where it is above 255, and no wrap happens (R29). -/
def withNextPc (h : Handler) (s : State) (k : Byte → Result) : Result :=
  if s.pc.toNat + h.width < Config.memSize then k (BitVec.ofNat 8 (s.pc.toNat + h.width)) else raise .pcOutOfRange h s

end Sys2Proof.Machine
end

