-- ==== Sys2Proof/Machine/Alu.lean ====
section
/-! DEFINITION. The ALU and the meanings of ADD, MUL and CMP (42_alu.md). -/

namespace Sys2Proof.Machine

/-- An ALU operation tag (R140). -/
inductive AluTag
  /-- R141. -/
  | add
  /-- R142: no instruction issues it (conflict C3). -/
  | sub
  /-- R143. -/
  | mul
  /-- R144. -/
  | compare
  /-- Any other tag (R146); no instruction issues one. The source gives tags no numbers: `tag` is a name only (log 12). -/
  | other (tag : Nat)
  deriving DecidableEq, Repr

/-- `n mod 256`, the non-negative remainder: how a mathematical integer is narrowed to a register (R11, R148; the spec's
decision D2, log 7). -/
def mod256 (n : Int) : Byte := BitVec.ofInt 8 n

/-- The ALU: `x[a]`, `x[b]` and the tag in; `x[a]` (ADD, SUB, MUL) or `FL` (COMPARE) out, and nothing else (R140). COMPARE
does not clear `FL`: it sets one more bit (R144). -/
def alu (tag : AluTag) (a b : RegIndex) (s : State) : Except FaultReason State :=
  match tag with
  | .add     => .ok (s.setReg a (mod256 (((s.reg a).toNat : Int) + ((s.reg b).toNat : Int))))
  | .sub     => .ok (s.setReg a (mod256 (((s.reg a).toNat : Int) - ((s.reg b).toNat : Int))))
  | .mul     => .ok (s.setReg a (mod256 (((s.reg a).toNat : Int) * ((s.reg b).toNat : Int))))
  | .compare => .ok (s.setFl (s.fl ||| compareFlag (s.reg a) (s.reg b)))
  | .other _ => .error .unsupportedOperation

/-- Commit what the ALU answers and go on at `npc`, or take the ALU's fault in the state before the instruction (R117). -/
def commitAlu (h : Handler) (s : State) (npc : Byte) (answer : Except FaultReason State) : Result :=
  match answer with
  | .ok t => .next (t.setPc npc)
  | .error reason => raise reason h s

/-- ADD a, b (R145). -/
def execAdd (a b : Byte) (s : State) : Result :=
  withRegs .add a b s fun a b =>
  withNextPc .add s fun npc =>
    commitAlu .add s npc (alu .add a b s)

/-- MUL a, b (R147). -/
def execMul (a b : Byte) (s : State) : Result :=
  withRegs .mul a b s fun a b =>
  withNextPc .mul s fun npc =>
    commitAlu .mul s npc (alu .mul a b s)

/-- CMP a, b (R149): the handler clears `FL`, then the ALU compares. -/
def execCmp (a b : Byte) (s : State) : Result :=
  withRegs .cmp a b s fun a b =>
  withNextPc .cmp s fun npc =>
    commitAlu .cmp s npc (alu .compare a b (s.setFl 0#8))

end Sys2Proof.Machine
end

