-- ==== Sys2Proof/Machine/Control.lean ====
section
/-! DEFINITION. The meanings of CALL, RET, JMP, JEQ and JNE (44_control_transfer.md). -/

namespace Sys2Proof.Machine

/-- CALL r (R170): push the address after the CALL, then jump to `x[r]` as it is after the decrement (D18, log 8). -/
def execCall (r : Byte) (s : State) : Result :=
  withReg .call r s fun r =>
  withStackRoom .call (s.sp == 0#8) s <|
  withNextPc .call s fun npc =>
    let t := s.decSp
    .next ((t.storeTop npc).setPc (t.reg r))

/-- RET (R172): pop one byte into the PC; it never uses the next sequential PC. -/
def execRet (s : State) : Result :=
  withStackRoom .ret (s.sp == 255#8) s <|
    .next ((s.setPc s.loadTop).incSp)

/-- JMP r (R174). -/
def execJmp (r : Byte) (s : State) : Result :=
  withReg .jmp r s fun r =>
    .next (s.setPc (s.reg r))

/-- JEQ r (R176): jump if EQUAL is set, else the next instruction. -/
def execJeq (r : Byte) (s : State) : Result :=
  withReg .jeq r s fun r =>
    if s.flagE then .next (s.setPc (s.reg r))
    else withNextPc .jeq s fun npc => .next (s.setPc npc)

/-- JNE r (R178): jump if EQUAL is clear, else the next instruction. -/
def execJne (r : Byte) (s : State) : Result :=
  withReg .jne r s fun r =>
    if s.flagE then withNextPc .jne s fun npc => .next (s.setPc npc)
    else .next (s.setPc (s.reg r))

end Sys2Proof.Machine
end

