-- ==== Sys2Proof/Machine/LoadPrintHalt.lean ====
section
/-! DEFINITION. The meanings of LDI, PRN and HLT (41_load_print_halt.md). -/

namespace Sys2Proof.Machine

/-- LDI r, imm8 (R130): never a memory store (R131). -/
def execLdi (r imm8 : Byte) (s : State) : Result :=
  withReg .ldi r s fun r =>
  withNextPc .ldi s fun npc =>
    .next ((s.setReg r imm8).setPc npc)

/-- PRN r (R132). -/
def execPrn (r : Byte) (s : State) : Result :=
  withReg .prn r s fun r =>
  withNextPc .prn s fun npc =>
    .next ((s.emit (s.reg r)).setPc npc)

/-- HLT (R134): the PC stays at the HLT and nothing can fault (D10, log 9). -/
def execHlt (s : State) : Result := .next s.halt

end Sys2Proof.Machine
end

