-- ==== Sys2Proof/Machine/Stack.lean ====
section
/-! DEFINITION. The meanings of PUSH and POP (43_stack.md). -/

namespace Sys2Proof.Machine

/-- PUSH r (R160): decrement, then store `x[r]` as it is after the decrement (D18, log 8). -/
def execPush (r : Byte) (s : State) : Result :=
  withReg .push r s fun r =>
  withStackRoom .push (s.sp == 0#8) s <|
  withNextPc .push s fun npc =>
    let t := s.decSp
    .next ((t.storeTop (t.reg r)).setPc npc)

/-- POP r (R162): load, then increment; for register 7 the value incremented is the value loaded (D18, log 8). -/
def execPop (r : Byte) (s : State) : Result :=
  withReg .pop r s fun r =>
  let v := s.loadTop
  let t := if r = spIndex then v else s.sp
  withStackRoom .pop (t == 255#8) s <|
  withNextPc .pop s fun npc =>
    .next ((s.setReg r v).incSp.setPc npc)

end Sys2Proof.Machine
end

