-- ==== Sys2Proof/Machine/Fetch.lean ====
section
/-! DEFINITION. Fetching an instruction's bytes (40_execution_loop.md R112 to R114; 20_memory.md R63) and storing one where
the next fetch reads. -/

namespace Sys2Proof.Machine

/-- The bytes of memory from address `a` upward, at most `n` of them and none above address 255: there is no wrap-around
(R29, R60). -/
def Memory.bytesFrom (m : Memory) : (n a : Nat) → List Byte
  | 0, _ => []
  | n + 1, a => if a < Config.memSize then m.readByte a :: Memory.bytesFrom m n (a + 1) else []

/-- `ir = MemRead(pc, 1)`: the instruction register (R112). -/
def State.ir (s : State) : Byte := s.memRead s.pc

/-- The instruction's own bytes, ascending, as far as memory reaches (R63, R114). -/
def State.instrBytes (s : State) : List Byte := s.mem.bytesFrom (fetchLength s.ir) s.pc.toNat

/-- The fault a fetch that finds no instruction raises: an unknown opcode (R113), or an operand byte above address 255
(R114). The first case never arises, since the PC is in 0..255 (log 26). -/
def fetchFault : DecodeError → FaultReason
  | .noOpcodeByte => .pcOutOfRange
  | .unknownOpcode _ => .unknownOpcode
  | .missingOperand _ => .pcOutOfRange

/-- Fetch and decode the instruction at the PC, or say which fault the fetch raises. -/
def State.fetch (s : State) : Except FaultReason Instr :=
  match decode s.instrBytes with
  | .ok i => .ok i
  | .error e => .error (fetchFault e)

/-- Write bytes at ascending addresses from `a`; what would lie above address 255 is not written. -/
def Memory.writeBytes (m : Memory) : (a : Nat) → List Byte → Memory
  | _, [] => m
  | a, v :: vs => if a < Config.memSize then Memory.writeBytes (m.writeByte a v) (a + 1) vs else m

end Sys2Proof.Machine
end

