-- ==== Sys2Proof/Machine/Step.lean ====
section
/-! DEFINITION. The step: fetch, decode and execute exactly one instruction (40_execution_loop.md R110 to R119). -/

namespace Sys2Proof.Machine

/-- One step (R118). It exists in run state `Running` only (R111). -/
def step (s : State) : Host.Outcome State Fault Refusal :=
  match s.run with
  | .halted => .fault .noStepHalted
  | .faulted reason => .fault (.noStepFaulted reason)
  | .running =>
    match s.fetch with
    | .ok i => exec i s
    | .error reason => .next (s.takeFault reason s.ir)

/-- `s` with the bytes of one table word stored at the PC, where the next step fetches (log 13). Bytes that would lie
above address 255 are not stored; nothing but memory changes. -/
def State.withFetchWord (s : State) (nbits w : Nat) : State :=
  { s with mem := s.mem.writeBytes s.pc.toNat (tableBytes nbits w) }

end Sys2Proof.Machine
end

