-- ==== Sys2Proof/Machine/RunLoop.lean ====
section
/-! DEFINITION. The run operation (40_execution_loop.md R120 to R122) and what the host reads of a machine: its
termination result, its rendered output and its exit status (10_state.md R41 to R43; 80_host_interface.md R266, R267). -/

namespace Sys2Proof.Machine

/-- The typed termination result of a state, none while the machine is `Running` (R41, R43). -/
def State.termination (s : State) : Option Termination :=
  match s.run with
  | .running => none
  | .halted => some .halted
  | .faulted reason => some (.faulted reason)

/-- The run operation under fuel (R121; log 22): repeat the step while the run state is `Running` and answer the first
terminal state; `none` where `fuel` steps did not reach one. -/
def runLoop : (fuel : Nat) → State → Option State
  | 0, s => if s.run = .running then none else some s
  | fuel + 1, s =>
    if s.run = .running then
      match step s with
      | .next t => runLoop fuel t
      | .fault _ => none
      | .refused _ => none
    else some s

/-- The host's rendering of the output stream: the unsigned decimal numeral of each value, one a line (R266). A line's end
is the list's own (N20). -/
def State.renderedOut (s : State) : List (List Char) := s.out.map fun v => Nat.toDigits 10 v.toNat

/-- The exit status of the command-line host: 0 for `Halted`, nonzero for `Faulted` (R267), none while running. Which
nonzero value is a free value (log 18). -/
def State.exitStatus (s : State) : Option Nat :=
  match s.run with
  | .running => none
  | .halted => some 0
  | .faulted reason => some (Config.faultExitStatusPred reason s.record + 1)

end Sys2Proof.Machine
end

