-- ==== Sys2Proof/Machine/Loader.lean ====
section
/-! DEFINITION. The Loader: the program text, the image and the launch state (80_host_interface.md R261 to R265;
70_reset_and_hazards.md R233, R236). It stands outside the step (00_scope.md R7). -/

namespace Sys2Proof.Machine

/-- The character that ends a line of a program text (DESIGN CHOICE, log 15: the spec names no line end, N19). -/
def lineEnd : Char := '\n'

/-- The white space stripped from a line: space, tab, carriage return, line feed, vertical tab, form feed (DESIGN CHOICE,
log 15). -/
def isBlankChar (c : Char) : Bool := c.toNat == 32 || (9 ≤ c.toNat && c.toNat ≤ 13)

/-- The lines of a text. -/
def textLines : List Char → List (List Char)
  | [] => [[]]
  | c :: cs =>
    if c = lineEnd then [] :: textLines cs
    else
      match textLines cs with
      | [] => [[c]]
      | l :: ls => (c :: l) :: ls

/-- Cut a line at its first `#` and drop the `#` and everything after it (R263). -/
def cutComment (line : List Char) : List Char := line.takeWhile (· ≠ '#')

/-- Strip white space from both ends (R263). -/
def strip (line : List Char) : List Char := ((line.dropWhile isBlankChar).reverse.dropWhile isBlankChar).reverse

/-- The value of a string of binary digits, read most significant digit first (R263). -/
def binaryValue (digits : List Char) : Nat := digits.foldl (fun n c => 2 * n + (if c = '1' then 1 else 0)) 0

/-- A literal: a non-empty string of the characters 0 and 1 whose value is at most 255 (R263; the spec's decision D22,
log 25). -/
def isLiteral (content : List Char) : Bool :=
  !content.isEmpty && content.all (fun c => c == '0' || c == '1') && decide (binaryValue content < Config.memSize)

/-- What one line of a program text is (R263, R264). -/
inductive LineKind
  /-- Only a comment or white space: skipped, and no address is consumed (R262). -/
  | blank
  /-- One byte of the image. -/
  | literal (v : Byte)
  /-- Anything else. -/
  | malformed
  deriving DecidableEq, Repr

/-- Parse one line (R263). -/
def parseLine (line : List Char) : LineKind :=
  let content := strip (cutComment line)
  if content.isEmpty then .blank
  else if isLiteral content then .literal (BitVec.ofNat 8 (binaryValue content))
  else .malformed

/-- The bytes of the literal lines of a text, in order (R262). -/
def textLiterals (text : List Char) : List Byte :=
  (textLines text).filterMap fun line =>
    match parseLine line with
    | .literal v => some v
    | .blank => none
    | .malformed => none

/-- Whether some line of a text is malformed (R264). -/
def textMalformed (text : List Char) : Bool := (textLines text).any fun line => parseLine line == .malformed

/-- The Loader on the program resource (`none`: it cannot be opened): the image, or the fault it fails with
(R262, R264, R265). Where a text is both malformed and too long the fault reported is a free value (log 16). -/
def loadImage : (program : Option (List Char)) → Except FaultReason (List Byte)
  | none => .error .programNotFound
  | some text =>
    let image := textLiterals text
    if textMalformed text then
      if Config.memSize < image.length && Config.reportsTooLargeFirst text then .error .programTooLarge
      else .error .malformedProgram
    else if Config.memSize < image.length then .error .programTooLarge
    else .ok image

/-- The initial fill: byte `k` of the image at address `k`, over the memory reset leaves (R54, R236). -/
def initialFill (image : List Byte) : Memory := State.reset.mem.writeBytes 0 image

/-- The launch state of an image: its initial fill, and all else as reset leaves it (R236). -/
def State.launch (image : List Byte) : State := { State.reset with mem := initialFill image }

/-- Memory after a failed load: every cell a free value (R264, U10; log 17). -/
def failedLoadMemory (program : Option (List Char)) : Memory :=
  initialFill ((List.range Config.memSize).map (Config.failedLoadByte program))

/-- Boot: reset, then load (R233). A failed load leaves the machine `Faulted` with the Loader's reason and nothing runs
(R216). -/
def boot (program : Option (List Char)) : State :=
  match loadImage program with
  | .ok image => State.launch image
  | .error reason => { State.reset with mem := failedLoadMemory program }.takeLoaderFault reason

/-- What the command-line host shows of one program: the lines printed and the exit status, none where the run needs more
than `fuel` steps (R260, R266, R267). -/
def hostRun (fuel : Nat) (program : Option (List Char)) : Option (List (List Char) × Option Nat) :=
  (runLoop fuel (boot program)).map fun s => (s.renderedOut, s.exitStatus)

end Sys2Proof.Machine
end

