-- ==== Sys2Proof/Safety.lean ====
section
/-! DEFINITION. The terms claims are stated in: the invariant of the machine, what a fault leaves, what a safe run is. -/

namespace Sys2Proof.Machine

/-- The values `FL` can hold: 0 before the first CMP, then 1, 2 or 4 (R30, R32). -/
def flLegal (fl : Byte) : Prop := fl = 0#8 ∨ fl = 1#8 ∨ fl = 2#8 ∨ fl = 4#8

/-- The fault record agrees with the run state: empty before any fault (R35), and holding the reason after one (R204). -/
def State.recordAgrees (s : State) : Prop :=
  match s.run with
  | .faulted reason => ∃ pc ir, s.record = some ⟨reason, pc, ir⟩
  | .running => s.record = none
  | .halted => s.record = none

/-- The invariant of the machine: memory is in canonical form, `FL` holds one of its legal values, and the fault record
agrees with the run state. -/
structure State.Inv (s : State) : Prop where
  memWf     : s.mem.wf
  flOk      : flLegal s.fl
  recAgrees : s.recordAgrees

/-- `t` differs from `s` in run state and fault record alone: nothing of the instruction was committed (R203). -/
def State.sameData (s t : State) : Prop :=
  t.mem = s.mem ∧ t.regs = s.regs ∧ t.pc = s.pc ∧ t.fl = s.fl ∧ t.out = s.out

/-- The outcome `o` of an instruction or step begun in `s` is the fault `reason`: a next state with run state
`Faulted(reason)`, the record (reason, pc of the instruction, ir), and nothing else changed (R117, R203, R204). -/
def raisesFault (s : State) (o : Result) (reason : FaultReason) (ir : Byte) : Prop :=
  ∃ t, o = .next t ∧ t.run = .faulted reason ∧ t.record = some ⟨reason, s.pc, some ir⟩ ∧ s.sameData t

/-- The common part of a step (R112 to R114) for an instruction of width 1 whose opcode is `op`. -/
def fetchesWidth1 (op : Byte) (i : Instr) : Prop :=
  ∀ s : State, s.run = .running → s.memRead s.pc = op → step s = exec i s

/-- The same for width 2: `opA` lies at `pc + 1`, and a fault is raised where that is above 255. -/
def fetchesWidth2 (op : Byte) (i : Byte → Instr) : Prop :=
  ∀ s : State, s.run = .running → s.memRead s.pc = op →
    (s.pc.toNat ≤ 254 → step s = exec (i (s.memRead (s.pc + 1#8))) s) ∧
    (254 < s.pc.toNat → raisesFault s (step s) .pcOutOfRange op)

/-- The same for width 3: `opA` lies at `pc + 1` and `opB` at `pc + 2`. -/
def fetchesWidth3 (op : Byte) (i : Byte → Byte → Instr) : Prop :=
  ∀ s : State, s.run = .running → s.memRead s.pc = op →
    (s.pc.toNat ≤ 253 → step s = exec (i (s.memRead (s.pc + 1#8)) (s.memRead (s.pc + 2#8))) s) ∧
    (253 < s.pc.toNat → raisesFault s (step s) .pcOutOfRange op)

/-- The registers an instruction writes when it completes (the last column of R23's table), by number. -/
def registersWritten : Instr → List Nat
  | .ldi r _ => [r.toNat]
  | .prn _   => []
  | .hlt     => []
  | .add a _ => [a.toNat]
  | .mul a _ => [a.toNat]
  | .push _  => [7]
  | .pop r   => [r.toNat, 7]
  | .call _  => [7]
  | .ret     => [7]
  | .cmp _ _ => []
  | .jmp _   => []
  | .jeq _   => []
  | .jne _   => []

/-- The registers an instruction reads (the middle column of R23's table), by number; a conditional jump reads its target
when it is taken. -/
def registersRead (s : State) : Instr → List Nat
  | .ldi _ _ => []
  | .prn r   => [r.toNat]
  | .hlt     => []
  | .add a b => [a.toNat, b.toNat]
  | .mul a b => [a.toNat, b.toNat]
  | .push r  => [7, r.toNat]
  | .pop _   => [7]
  | .call r  => [7, r.toNat]
  | .ret     => [7]
  | .cmp a b => [a.toNat, b.toNat]
  | .jmp r   => [r.toNat]
  | .jeq r   => if s.flagE then [r.toNat] else []
  | .jne r   => if s.flagE then [] else [r.toNat]

/-- The stack pointer would leave 0..255 (R209): PUSH and CALL at 0, RET at 255, POP where the value its increment acts on
is 255. -/
def stackLeavesRange (h : Handler) (s : State) : Bool :=
  match h with
  | .push => s.sp == 0#8
  | .call => s.sp == 0#8
  | .ret  => s.sp == 255#8
  | .pop  => (if s.memRead (s.pc + 1#8) = 7#8 then s.memRead s.sp else s.sp) == 255#8
  | .ldi | .prn | .hlt | .add | .mul | .cmp | .jmp | .jeq | .jne => false

/-- The instruction uses `pc + w`, to go there or to push it (R116). -/
def usesNextPc (h : Handler) (s : State) : Bool :=
  match h with
  | .ldi | .prn | .add | .mul | .cmp | .push | .pop | .call => true
  | .hlt | .ret | .jmp => false
  | .jeq => !s.flagE
  | .jne => s.flagE

/-- The fault of a step from its fetched bytes, in the order of R208; none where the instruction completes. Written from the
tables of 60_exceptions.md (R205 to R209, R215) and not from the meanings. -/
def firstFault (s : State) : Option FaultReason :=
  match dispatchTable (s.memRead s.pc) with
  | none => some .unknownOpcode
  | some h =>
    if 256 < s.pc.toNat + h.width then some .pcOutOfRange
    else if 2 ≤ h.width ∧ 7 < (s.memRead (s.pc + 1#8)).toNat then some .invalidRegister
    else if h ∈ [Handler.add, .mul, .cmp] ∧ 7 < (s.memRead (s.pc + 2#8)).toNat then some .invalidRegister
    else if stackLeavesRange h s then some .stackFault
    else if usesNextPc h s ∧ s.pc.toNat + h.width = 256 then some .pcOutOfRange
    else none

/-- The eight binary digits of a byte, most significant first: the usual spelling of a literal (R263). -/
def binaryDigits (v : Byte) : List Char :=
  [7, 6, 5, 4, 3, 2, 1, 0].map fun k => if v.getLsbD k then '1' else '0'

/-- The program text of an image: one literal a line (R261). -/
def programText (image : List Byte) : List Char := image.flatMap fun v => binaryDigits v ++ [lineEnd]

/-- `content` is what R263 leaves of `line` once it is cut at its first `#` and stripped of white space at both ends: it holds
no `#`, it begins and ends with no white space, and around it stand white space alone and then, if anything, a comment. -/
def lineContent (line content : List Char) : Prop :=
  ∃ before after tail : List Char, line = before ++ content ++ after ++ tail ∧
    (∀ c ∈ before ++ after, isBlankChar c = true) ∧ (tail = [] ∨ tail.head? = some '#') ∧ '#' ∉ content ∧
    (∀ c ∈ content.head?, isBlankChar c = false) ∧ (∀ c ∈ content.getLast?, isBlankChar c = false)

/-- `content` is a non-empty string of the characters 0 and 1 whose value, read most significant digit first, is `n`: any
number of digits, leading zeros allowed (R263). -/
def spellsBinary (content : List Char) (n : Nat) : Prop :=
  content ≠ [] ∧ (∀ c ∈ content, c = '0' ∨ c = '1') ∧
    Nat.ofDigits 2 (content.reverse.map fun c => if c = '1' then 1 else 0) = n

/-- The lines of a text: at least one, and no line end inside a line. -/
def areLines (lines : List (List Char)) : Prop := lines ≠ [] ∧ ∀ line ∈ lines, lineEnd ∉ line

/-- The text of some lines: a line end between every two. -/
def textOf (lines : List (List Char)) : List Char := [lineEnd].intercalate lines

/-- The bytes of the literals among some lines, in order; the other lines consume no address (R262). -/
def literalBytes : List LineKind → List Byte
  | [] => []
  | .literal v :: kinds => v :: literalBytes kinds
  | .blank :: kinds => literalBytes kinds
  | .malformed :: kinds => literalBytes kinds

/-- The load of `program` fails with `reason` and the machine is left as R216 and R204 say: `Faulted` with the Loader's reason,
a record with PC 0 and no IR, registers, PC, FL and output as after reset, and no step. Of memory it says nothing (log 17). -/
def failsToBoot (program : Option (List Char)) (reason : FaultReason) : Prop :=
  loadImage program = .error reason ∧
  { boot program with mem := State.reset.mem } =
    { State.reset with run := .faulted reason, record := some ⟨reason, 0#8, none⟩ } ∧
  ∀ t, step (boot program) ≠ .next t

/-- A run is safe as long as the machine has not faulted: "A run that ends `Halted` is the only successful end" (R122). -/
def State.safe (s : State) : Prop := ∀ reason, s.run ≠ .faulted reason

/-- The states a machine can reach from the launch state of a program (R233, R236). -/
inductive Reachable (program : Option (List Char)) : State → Prop
  | boot : Reachable program (boot program)
  | step (s t : State) : Reachable program s → step s = .next t → Reachable program t

end Sys2Proof.Machine
end

