-- ==== Sys2Proof/Certificates/Slice0/Obligations.lean ====
section
/-! DEFINITION. The statements for the provers. A docstring names the rule a statement formalises; "D<n>" is a decision of
spec/92_eei_decisions.md, the spec's own choice and not its source's; "log <n>" is notes/assumptions/<n>.md. -/

open Sys2Proof Sys2Proof.Machine

/-! ### Encoding -/

/-- 30_encoding.md R80 to R83, R86: bytes decode to an instruction exactly when they begin with its encoding, so decoding
inverts encoding with every operand byte at every value, no two encodings overlap, and the bytes after an instruction do not
matter. (Opcode values: D1; operand positions: D12; log 1.) -/
def Obligations.DecodeInvertsEncode : Prop :=
  ∀ (bytes : List Byte) (i : Instr), decode bytes = .ok i ↔ encode i <+: bytes

/-- Words written out bit by bit from the "Encoding:" lines of the instruction rules (D1, D12; log 1). -/
def Obligations.SpecWordsDecode : Prop :=
  decode [0b10000010#8, 0b00000011#8, 0b11111111#8] = .ok (.ldi 3#8 255#8) ∧
  decode [0b01000111#8, 0b00000111#8] = .ok (.prn 7#8) ∧
  decode [0b00000001#8] = .ok .hlt ∧
  decode [0b10100010#8, 0b00000001#8, 0b00000010#8] = .ok (.mul 1#8 2#8) ∧
  decode [0b01000110#8, 0b00000010#8] = .ok (.pop 2#8) ∧
  decode [0b00010001#8] = .ok .ret ∧
  decode [0b01010110#8, 0b00000101#8] = .ok (.jne 5#8) ∧
  decode [0b10100001#8, 0b00000000#8, 0b00000001#8] = .error (.unknownOpcode 0b10100001#8)

/-- 30_encoding.md R86, R88: decode is by equality of the whole opcode byte, the thirteen values are pairwise distinct, and
243 byte values are unknown. (The values themselves: D1, log 1.) -/
def Obligations.DispatchByWholeOpcodeByte : Prop :=
  (∀ (b : Byte) (h : Handler), dispatchTable b = some h ↔ h.opcode = b) ∧
  (∀ h k : Handler, h.opcode = k.opcode → h = k) ∧
  Handler.all.length = 13 ∧
  ((List.range 256).filter fun n => dispatchTable (BitVec.ofNat 8 n) = none).length = 243

/-! ### The step -/

/-- 40_execution_loop.md R110, R118: when the bytes at the PC decode to `i`, a step in run state `Running` is `exec i`; nothing
is added around it. -/
def Obligations.StepRunsDecodedInstruction : Prop :=
  ∀ (s : State) (i : Instr) (n : Nat),
    s.run = .running → decode (s.mem.bytesFrom n s.pc.toNat) = .ok i → step s = exec i s

/-- 40_execution_loop.md R111, with R119 for the other direction: a step exists exactly in run state `Running`. -/
def Obligations.StepExistsExactlyWhileRunning : Prop :=
  ∀ s : State, (∃ t, step s = .next t) ↔ s.run = .running

/-- 60_exceptions.md R205: `UnknownOpcode` is raised exactly when the byte at the PC is none of the thirteen opcodes, with the
record (`UnknownOpcode`, pc, that byte), and the exit status is then nonzero. -/
def Obligations.UnknownOpcodeExactly : Prop :=
  ∀ s : State, s.run = .running →
    ((∀ h : Handler, h.opcode ≠ s.memRead s.pc) → raisesFault s (step s) .unknownOpcode (s.memRead s.pc)) ∧
    (∀ t, step s = .next t → t.run = .faulted .unknownOpcode →
      (∀ h : Handler, h.opcode ≠ s.memRead s.pc) ∧ ∃ n, t.exitStatus = some n ∧ n ≠ 0)

/-- 40_execution_loop.md R114 (D4, D7; log 5): with a known opcode at the PC, the step reads exactly the instruction's own
`w - 1` operand bytes, at ascending addresses, and runs the instruction they make; where one of them would lie above address
255 it raises `PcOutOfRange`. -/
def Obligations.OperandFetch : Prop :=
  ∀ (s : State) (h : Handler), s.run = .running → s.memRead s.pc = h.opcode →
    (s.pc.toNat + h.width ≤ 256 →
      ∃ i : Instr, i.handler = h ∧
        i.operandBytes = (List.range (h.width - 1)).map (fun k => s.mem.readByte (s.pc.toNat + 1 + k)) ∧
        step s = exec i s) ∧
    (256 < s.pc.toNat + h.width → raisesFault s (step s) .pcOutOfRange h.opcode)

/-! ### The instruction rules: fetch, faults in their order, and the effect with everything it leaves unchanged -/

/-- 41_load_print_halt.md R130. (The fault clauses of the rule carry D3 and D4.) -/
def Obligations.LdiLoadsImmediate : Prop :=
  fetchesWidth3 0b10000010#8 .ldi ∧
  ∀ (s : State) (opA imm8 : Byte),
    (7 < opA.toNat → raisesFault s (exec (.ldi opA imm8) s) .invalidRegister 0b10000010#8) ∧
    ∀ r : RegIndex, opA.toNat = r.val →
      (s.pc.toNat + 3 < 256 →
        exec (.ldi opA imm8) s = .next { s with regs := s.regs.set r imm8, pc := s.pc + 3#8 }) ∧
      (256 ≤ s.pc.toNat + 3 → raisesFault s (exec (.ldi opA imm8) s) .pcOutOfRange 0b10000010#8)

/-- 41_load_print_halt.md R132. (The fault clauses carry D3 and D4; that the emission always succeeds is D9, log 10.) -/
def Obligations.PrnEmitsRegister : Prop :=
  fetchesWidth2 0b01000111#8 .prn ∧
  ∀ (s : State) (opA : Byte),
    (7 < opA.toNat → raisesFault s (exec (.prn opA) s) .invalidRegister 0b01000111#8) ∧
    ∀ r : RegIndex, opA.toNat = r.val →
      (s.pc.toNat + 2 < 256 →
        exec (.prn opA) s = .next { s with out := s.out ++ [s.reg r], pc := s.pc + 2#8 }) ∧
      (256 ≤ s.pc.toNat + 2 → raisesFault s (exec (.prn opA) s) .pcOutOfRange 0b01000111#8)

/-- 41_load_print_halt.md R134: HLT halts in every state and changes nothing but the run state; that the PC stays at the HLT
is the spec's decision D10 (log 9). -/
def Obligations.HltHalts : Prop :=
  fetchesWidth1 0b00000001#8 .hlt ∧ ∀ s : State, exec .hlt s = .next { s with run := .halted }

/-- 42_alu.md R145, with the wrap of R141 (D2, log 7). (The fault clauses carry D3 and D4.) -/
def Obligations.AddWrapsModulo256 : Prop :=
  fetchesWidth3 0b10100000#8 .add ∧
  ∀ (s : State) (opA opB : Byte),
    (7 < opA.toNat ∨ 7 < opB.toNat → raisesFault s (exec (.add opA opB) s) .invalidRegister 0b10100000#8) ∧
    ∀ a b : RegIndex, opA.toNat = a.val → opB.toNat = b.val →
      (s.pc.toNat + 3 < 256 →
        exec (.add opA opB) s = .next
          { s with regs := s.regs.set a (BitVec.ofNat 8 (((s.reg a).toNat + (s.reg b).toNat) % 256)), pc := s.pc + 3#8 }) ∧
      (256 ≤ s.pc.toNat + 3 → raisesFault s (exec (.add opA opB) s) .pcOutOfRange 0b10100000#8)

/-- 42_alu.md R147, with the wrap of R143 (D2, log 7). (The fault clauses carry D3 and D4.) -/
def Obligations.MulKeepsLowByte : Prop :=
  fetchesWidth3 0b10100010#8 .mul ∧
  ∀ (s : State) (opA opB : Byte),
    (7 < opA.toNat ∨ 7 < opB.toNat → raisesFault s (exec (.mul opA opB) s) .invalidRegister 0b10100010#8) ∧
    ∀ a b : RegIndex, opA.toNat = a.val → opB.toNat = b.val →
      (s.pc.toNat + 3 < 256 →
        exec (.mul opA opB) s = .next
          { s with regs := s.regs.set a (BitVec.ofNat 8 (((s.reg a).toNat * (s.reg b).toNat) % 256)), pc := s.pc + 3#8 }) ∧
      (256 ≤ s.pc.toNat + 3 → raisesFault s (exec (.mul opA opB) s) .pcOutOfRange 0b10100010#8)

/-- 42_alu.md R149: FL becomes 1 (EQUAL), 4 (LESS) or 2 (GREATER), whatever it was. (The fault clauses carry D3 and D4.) -/
def Obligations.CmpSetsExactlyOneFlag : Prop :=
  fetchesWidth3 0b10100111#8 .cmp ∧
  ∀ (s : State) (opA opB : Byte),
    (7 < opA.toNat ∨ 7 < opB.toNat → raisesFault s (exec (.cmp opA opB) s) .invalidRegister 0b10100111#8) ∧
    ∀ a b : RegIndex, opA.toNat = a.val → opB.toNat = b.val →
      (s.pc.toNat + 3 < 256 →
        exec (.cmp opA opB) s = .next
          { s with
            fl := if s.reg a = s.reg b then 0b00000001#8
                  else if (s.reg a).toNat < (s.reg b).toNat then 0b00000100#8 else 0b00000010#8,
            pc := s.pc + 3#8 }) ∧
      (256 ≤ s.pc.toNat + 3 → raisesFault s (exec (.cmp opA opB) s) .pcOutOfRange 0b10100111#8)

/-- 43_stack.md R160: PUSH writes `x[7]` and one byte of memory, at `s.pushAddr` = `x[7] - 1`, and no other register or byte;
PUSH R7 stores the decremented pointer (D18, log 8). (The fault clauses carry D3, D4, D5.) -/
def Obligations.PushStoresBelowTop : Prop :=
  fetchesWidth2 0b01000101#8 .push ∧
  ∀ (s : State) (opA : Byte),
    (7 < opA.toNat → raisesFault s (exec (.push opA) s) .invalidRegister 0b01000101#8) ∧
    ∀ r : RegIndex, opA.toNat = r.val →
      (s.sp = 0#8 → raisesFault s (exec (.push opA) s) .stackFault 0b01000101#8) ∧
      (s.sp ≠ 0#8 → 256 ≤ s.pc.toNat + 2 → raisesFault s (exec (.push opA) s) .pcOutOfRange 0b01000101#8) ∧
      (s.sp ≠ 0#8 → s.pc.toNat + 2 < 256 → s.mem.wf →
        ∃ t, exec (.push opA) s = .next t ∧
          t.sp = s.pushAddr ∧ s.pushAddr.toNat + 1 = s.sp.toNat ∧
          (∀ j : RegIndex, j ≠ spIndex → t.reg j = s.reg j) ∧
          (∀ addr, t.mem.readByte addr =
            if addr = s.pushAddr.toNat then (if r = spIndex then s.pushAddr else s.reg r) else s.mem.readByte addr) ∧
          t.pc = s.pc + 2#8 ∧ t.fl = s.fl ∧ t.run = s.run ∧ t.record = s.record ∧ t.out = s.out)

/-- 43_stack.md R162: POP writes `x[r]` and `x[7]` and no other register, and no memory; POP R7 ends with the loaded byte plus 1
(D18, log 8). (The fault clauses carry D3, D4, D5.) -/
def Obligations.PopLoadsTop : Prop :=
  fetchesWidth2 0b01000110#8 .pop ∧
  ∀ (s : State) (opA : Byte),
    (7 < opA.toNat → raisesFault s (exec (.pop opA) s) .invalidRegister 0b01000110#8) ∧
    ∀ r : RegIndex, opA.toNat = r.val →
      ((if r = spIndex then s.memRead s.sp else s.sp) = 255#8 →
        raisesFault s (exec (.pop opA) s) .stackFault 0b01000110#8) ∧
      ((if r = spIndex then s.memRead s.sp else s.sp) ≠ 255#8 → 256 ≤ s.pc.toNat + 2 →
        raisesFault s (exec (.pop opA) s) .pcOutOfRange 0b01000110#8) ∧
      ((if r = spIndex then s.memRead s.sp else s.sp) ≠ 255#8 → s.pc.toNat + 2 < 256 →
        ∃ t, exec (.pop opA) s = .next t ∧
          t.sp = (if r = spIndex then s.memRead s.sp else s.sp) + 1#8 ∧
          (r ≠ spIndex → t.reg r = s.memRead s.sp) ∧
          (∀ j : RegIndex, j ≠ spIndex → j ≠ r → t.reg j = s.reg j) ∧
          t.mem = s.mem ∧ t.pc = s.pc + 2#8 ∧ t.fl = s.fl ∧ t.run = s.run ∧ t.record = s.record ∧ t.out = s.out)

/-- 44_control_transfer.md R170: CALL writes `x[7]` and one byte of memory, the return address `pc + 2` at `s.pushAddr`, and goes
to `x[r]`; CALL R7 goes to the decremented pointer (D18, log 8). (The fault clauses carry D3, D4, D5.) -/
def Obligations.CallPushesReturnAddress : Prop :=
  fetchesWidth2 0b01010000#8 .call ∧
  ∀ (s : State) (opA : Byte),
    (7 < opA.toNat → raisesFault s (exec (.call opA) s) .invalidRegister 0b01010000#8) ∧
    ∀ r : RegIndex, opA.toNat = r.val →
      (s.sp = 0#8 → raisesFault s (exec (.call opA) s) .stackFault 0b01010000#8) ∧
      (s.sp ≠ 0#8 → 256 ≤ s.pc.toNat + 2 → raisesFault s (exec (.call opA) s) .pcOutOfRange 0b01010000#8) ∧
      (s.sp ≠ 0#8 → s.pc.toNat + 2 < 256 → s.mem.wf →
        ∃ t, exec (.call opA) s = .next t ∧
          t.sp = s.pushAddr ∧ s.pushAddr.toNat + 1 = s.sp.toNat ∧
          (∀ j : RegIndex, j ≠ spIndex → t.reg j = s.reg j) ∧
          (∀ addr, t.mem.readByte addr =
            if addr = s.pushAddr.toNat then s.pc + 2#8 else s.mem.readByte addr) ∧
          t.pc = (if r = spIndex then s.pushAddr else s.reg r) ∧
          t.fl = s.fl ∧ t.run = s.run ∧ t.record = s.record ∧ t.out = s.out)

/-- 44_control_transfer.md R172: RET writes the PC and `x[7]` alone; at any PC, 255 included. (The fault clause carries D5.) -/
def Obligations.RetPopsPc : Prop :=
  fetchesWidth1 0b00010001#8 .ret ∧
  ∀ s : State,
    (s.sp = 255#8 → raisesFault s (exec .ret s) .stackFault 0b00010001#8) ∧
    (s.sp ≠ 255#8 →
      exec .ret s = .next { s with pc := s.memRead s.sp, regs := s.regs.set spIndex (s.sp + 1#8) })

/-- 44_control_transfer.md R174: JMP writes the PC alone, also at address 254. (The fault clauses carry D3 and D4.) -/
def Obligations.JmpReplacesPc : Prop :=
  fetchesWidth2 0b01010100#8 .jmp ∧
  ∀ (s : State) (opA : Byte),
    (7 < opA.toNat → raisesFault s (exec (.jmp opA) s) .invalidRegister 0b01010100#8) ∧
    ∀ r : RegIndex, opA.toNat = r.val → exec (.jmp opA) s = .next { s with pc := s.reg r }

/-- 44_control_transfer.md R176: JEQ reads bit 0 of FL and writes the PC alone. (The fault clauses carry D3 and D4.) -/
def Obligations.JeqJumpsIfEqualSet : Prop :=
  fetchesWidth2 0b01010101#8 .jeq ∧
  ∀ (s : State) (opA : Byte),
    (7 < opA.toNat → raisesFault s (exec (.jeq opA) s) .invalidRegister 0b01010101#8) ∧
    ∀ r : RegIndex, opA.toNat = r.val →
      (s.fl.getLsbD 0 = true → exec (.jeq opA) s = .next { s with pc := s.reg r }) ∧
      (s.fl.getLsbD 0 = false → s.pc.toNat + 2 < 256 → exec (.jeq opA) s = .next { s with pc := s.pc + 2#8 }) ∧
      (s.fl.getLsbD 0 = false → 256 ≤ s.pc.toNat + 2 → raisesFault s (exec (.jeq opA) s) .pcOutOfRange 0b01010101#8)

/-- 44_control_transfer.md R178: JNE reads bit 0 of FL and writes the PC alone. (The fault clauses carry D3 and D4.) -/
def Obligations.JneJumpsIfEqualClear : Prop :=
  fetchesWidth2 0b01010110#8 .jne ∧
  ∀ (s : State) (opA : Byte),
    (7 < opA.toNat → raisesFault s (exec (.jne opA) s) .invalidRegister 0b01010110#8) ∧
    ∀ r : RegIndex, opA.toNat = r.val →
      (s.fl.getLsbD 0 = false → exec (.jne opA) s = .next { s with pc := s.reg r }) ∧
      (s.fl.getLsbD 0 = true → s.pc.toNat + 2 < 256 → exec (.jne opA) s = .next { s with pc := s.pc + 2#8 }) ∧
      (s.fl.getLsbD 0 = true → 256 ≤ s.pc.toNat + 2 → raisesFault s (exec (.jne opA) s) .pcOutOfRange 0b01010110#8)

/-! ### Invariant -/

/-- Every step keeps the invariant: memory in canonical form with addresses in 0..255 (R50; log 14), FL one of 0, 1, 2, 4 (R30,
R32), the fault record agreeing with the run state (R35, R204). -/
def Obligations.StepKeepsInvariant : Prop :=
  ∀ s t : State, s.Inv → step s = .next t → t.Inv

/-- The invariant holds after reset (70_reset_and_hazards.md R231). -/
def Obligations.ResetMeetsInvariant : Prop := State.reset.Inv

/-- The invariant holds in the state the Loader leaves, for every program text, a failed load included, whatever the free values
of a failed load are (log 16, 17). -/
def Obligations.BootMeetsInvariant : Prop := ∀ program : Option (List Char), (boot program).Inv

/-! ### Faults -/

/-- 60_exceptions.md R203, R204, R211 (D8, log 6): whatever step raises a fault, the run state and the record are all it
writes; the record is (reason, pc of the instruction, opcode byte fetched there). -/
def Obligations.FaultsArePrecise : Prop :=
  ∀ (s t : State) (reason : FaultReason), step s = .next t → t.run = .faulted reason →
    s.sameData t ∧ t.record = some ⟨reason, s.pc, some (s.memRead s.pc)⟩

/-- 60_exceptions.md R208 with the conditions of R205 to R209 and R215 (D3, D4, D5, D13; log 5): the fault a step raises is
the first of the spec's order, and it raises none exactly where no condition holds. -/
def Obligations.FaultPriority : Prop :=
  ∀ s : State, s.run = .running →
    (∀ reason, (∃ t, step s = .next t ∧ t.run = .faulted reason) ↔ firstFault s = some reason) ∧
    (firstFault s = none → ∃ t, step s = .next t ∧ (t.run = .running ∨ t.run = .halted))

/-- 42_alu.md R146: any other tag fails with `UnsupportedOperation`, and no step of the machine can raise that fault. -/
def Obligations.UnsupportedOperationUnreachable : Prop :=
  (∀ (tag : Nat) (a b : RegIndex) (s : State), alu (.other tag) a b s = .error .unsupportedOperation) ∧
  ∀ s t : State, step s = .next t → t.run ≠ .faulted .unsupportedOperation

/-- 60_exceptions.md R201, "raised by": a Loader reason is never raised by a step. -/
def Obligations.StepRaisesNoLoaderFault : Prop :=
  ∀ s t : State, step s = .next t →
    t.run ≠ .faulted .programNotFound ∧ t.run ≠ .faulted .malformedProgram ∧ t.run ≠ .faulted .programTooLarge

/-- 41_load_print_halt.md R134 and the table R215 of 60_exceptions.md: "HLT is the only instruction that can never fault".
(That the others can rests on D4 and D5, log 5.) -/
def Obligations.OnlyHltNeverFaults : Prop :=
  ∀ h : Handler, h = .hlt ↔
    ∀ (s t : State) (reason : FaultReason),
      s.run = .running → s.memRead s.pc = h.opcode → step s = .next t → t.run ≠ .faulted reason

/-! ### What instructions leave unchanged, and what they read -/

/-- 10_state.md R31, first part: only CMP writes FL. -/
def Obligations.OnlyCmpWritesFlags : Prop :=
  ∀ (i : Instr) (s t : State), (∀ a b, i ≠ .cmp a b) → exec i s = .next t → t.fl = s.fl

/-- 10_state.md R31, second part: only JEQ and JNE read FL, and they read bit 0 alone. Two states that differ in FL alone go on
alike under every other instruction, and under JEQ and JNE where bit 0 is the same; FL itself ends the same after a CMP that
completes and is carried along otherwise. -/
def Obligations.FlagsReadByConditionalJumpsAlone : Prop :=
  ∀ (i : Instr) (s t : State) (f : Byte), s.run = .running → exec i s = .next t →
    (∀ r, i = .jeq r ∨ i = .jne r → f.getLsbD 0 = s.fl.getLsbD 0) →
    ((∀ a b, i ≠ .cmp a b) ∨ t.run ≠ .running → exec i { s with fl := f } = .next { t with fl := f }) ∧
    (∀ a b, i = .cmp a b → t.run = .running → exec i { s with fl := f } = .next t)

/-- 10_state.md R23: an instruction changes no register but those the table says it writes, and what it does depends on no
register but those the table says it reads: two states that differ in registers alone, and not in those read, go on alike but
for the registers not written. -/
def Obligations.RegistersReadAndWritten : Prop :=
  (∀ (i : Instr) (s t : State), exec i s = .next t →
    ∀ j : RegIndex, j.val ∉ registersWritten i → t.reg j = s.reg j) ∧
  (∀ (i : Instr) (s t : State) (other : Vector Byte Config.nregs), s.run = .running →
    (∀ j : RegIndex, j.val ∈ registersRead s i → other[j] = s.reg j) → exec i s = .next t →
    ∃ u, exec i { s with regs := other } = .next u ∧ { u with regs := t.regs } = t ∧
      (t.run = .running → ∀ j : RegIndex, j.val ∈ registersWritten i → u.reg j = t.reg j))

/-- 20_memory.md R54 and 10_state.md R42: an instruction that is neither PUSH nor CALL leaves all of memory unchanged; PUSH and
CALL change no byte but the one at `s.pushAddr`; only PRN writes the output stream. -/
def Obligations.MemoryAndOutputFrame : Prop :=
  ∀ (i : Instr) (s t : State), exec i s = .next t →
    ((∀ r, i ≠ .push r ∧ i ≠ .call r) → ∀ addr, t.mem.readByte addr = s.mem.readByte addr) ∧
    (∀ addr, addr ≠ s.pushAddr.toNat → t.mem.readByte addr = s.mem.readByte addr) ∧
    ((∀ r, i ≠ .prn r) → t.out = s.out)

/-- 20_memory.md R53 and R52: a write sets one cell and changes nothing else; a read returns the value last written. -/
def Obligations.MemWriteSetsOneCell : Prop :=
  ∀ (s : State) (addr v : Byte), s.mem.wf →
    (∀ b : Byte, (s.memWrite addr v).memRead b = if b = addr then v else s.memRead b) ∧
    s.memWrite addr v = { s with mem := (s.memWrite addr v).mem }

/-- The canonical form of memory (log 14): two memories in it that read alike at the 256 addresses of R50 are equal. -/
def Obligations.CanonicalMemoriesReadAlikeAreEqual : Prop :=
  ∀ m n : Memory, m.wf → n.wf → (∀ addr, addr < 256 → m.readByte addr = n.readByte addr) → m = n

/-! ### The ALU, the stack, calls -/

/-- 42_alu.md R141 to R144 (D2, log 7): the ALU writes `x[a]` with the integer sum, difference or product modulo 256, SUB
included, which no instruction issues; COMPARE sets one bit of FL and clears none. -/
def Obligations.AluOperations : Prop :=
  ∀ (a b : RegIndex) (s : State),
    (∃ t, alu .add a b s = .ok t ∧ t = { s with regs := s.regs.set a (t.reg a) } ∧
      (t.reg a).toNat = ((s.reg a).toNat + (s.reg b).toNat) % 256) ∧
    (∃ t, alu .sub a b s = .ok t ∧ t = { s with regs := s.regs.set a (t.reg a) } ∧
      ((t.reg a).toNat : Int) = (((s.reg a).toNat : Int) - ((s.reg b).toNat : Int)) % 256) ∧
    (∃ t, alu .mul a b s = .ok t ∧ t = { s with regs := s.regs.set a (t.reg a) } ∧
      (t.reg a).toNat = ((s.reg a).toNat * (s.reg b).toNat) % 256) ∧
    (flLegal s.fl → ∃ t, alu .compare a b s = .ok t ∧ t = { s with fl := t.fl } ∧
      t.fl = s.fl ||| (if s.reg a = s.reg b then 0b001#8 else if (s.reg a).toNat < (s.reg b).toNat then 0b100#8 else 0b010#8))

/-- 43_stack.md R164 (marked there as derived; D18): PUSH r then POP r restores every register, register 7 included, and
changes no byte of memory but the one below the old top; PUSH a then POP b copies register `a` to register `b`. -/
def Obligations.PushThenPop : Prop :=
  ∀ (s t u : State) (opA opB : Byte), s.mem.wf → s.run = .running →
    exec (.push opA) s = .next t → t.run = .running → exec (.pop opB) t = .next u → u.run = .running →
    (opA = opB → u.regs = s.regs) ∧
    (∀ a b : RegIndex, opA.toNat = a.val → opB.toNat = b.val → a ≠ spIndex → b ≠ spIndex →
      u.reg b = s.reg a ∧ ∀ j : RegIndex, j ≠ b → u.reg j = s.reg j) ∧
    (∀ addr, addr ≠ s.pushAddr.toNat → u.mem.readByte addr = s.mem.readByte addr)

/-- 44_control_transfer.md R173 (marked there as derived): a RET from any state `u` that has the stack pointer and the
return-address cell the CALL left returns to the call site plus 2 and gives the stack pointer its value before the CALL. -/
def Obligations.CallThenRet : Prop :=
  ∀ (s t u : State) (opA : Byte), s.mem.wf → s.run = .running →
    exec (.call opA) s = .next t → t.run = .running →
    u.sp = t.sp → u.memRead u.sp = t.memRead t.sp →
    exec .ret u = .next { u with pc := s.pc + 2#8, regs := u.regs.set spIndex s.sp }

/-- 41_load_print_halt.md R133 (marked there as derived): LDI then PRN of the same register emits the immediate, whatever the
registers held. -/
def Obligations.LdiThenPrnEmitsImmediate : Prop :=
  ∀ (s t u : State) (opA imm8 : Byte), s.run = .running →
    exec (.ldi opA imm8) s = .next t → t.run = .running → exec (.prn opA) t = .next u → u.run = .running →
    u.out = s.out ++ [imm8]

/-- 10_state.md R24: writing register 7 by LDI moves the stack: the next PUSH stores at the immediate less 1 (doc00 §9's own
test). -/
def Obligations.LdiOfRegister7MovesStack : Prop :=
  ∀ (s : State) (imm8 : Byte) (r : RegIndex), s.mem.wf → imm8 ≠ 0#8 → r ≠ spIndex → s.pc.toNat + 5 < 256 →
    ∃ t u, exec (.ldi 7#8 imm8) s = .next t ∧ exec (.push (BitVec.ofNat 8 r.val)) t = .next u ∧
      u.sp = imm8 - 1#8 ∧ u.memRead (imm8 - 1#8) = s.reg r

/-- 20_memory.md R66 (marked there as derived): a pushed byte is what the very next fetch of its address finds. With HLT's opcode
pushed onto the cell the PC moves to, the next step halts, whatever that cell held. -/
def Obligations.PushedByteIsFetched : Prop :=
  ∀ (s t : State) (opA : Byte) (r : RegIndex), s.mem.wf → opA.toNat = r.val → r ≠ spIndex → s.run = .running →
    s.reg r = 0b00000001#8 → exec (.push opA) s = .next t → t.run = .running → t.pc = s.pushAddr →
    step t = .next { t with run := .halted }

/-! ### Reset, boot, run, host -/

/-- 70_reset_and_hazards.md R231: the state after reset. (Registers 0 to 6 and FL by D6, log 2; 243 unaudited, log 3.) -/
def Obligations.ResetState : Prop :=
  (∀ addr, State.reset.mem.readByte addr = 0#8) ∧
  (∀ j : RegIndex, j ≠ spIndex → State.reset.reg j = 0#8) ∧
  State.reset.reg spIndex = 243#8 ∧ spIndex.val = 7 ∧
  State.reset.pc = 0#8 ∧ State.reset.fl = 0#8 ∧ State.reset.run = .running ∧
  State.reset.record = none ∧ State.reset.out = []

/-- 70_reset_and_hazards.md R236: the launch state of an image, and the end of the empty image (that clause is marked there as
derived). -/
def Obligations.LaunchState : Prop :=
  (∀ image : List Byte, image.length ≤ 256 →
    (∀ k, k < 256 → (State.launch image).mem.readByte k = image.getD k 0#8) ∧
    { State.launch image with mem := State.reset.mem } = State.reset) ∧
  raisesFault (State.launch []) (step (State.launch [])) .unknownOpcode 0#8

/-- 80_host_interface.md R261 to R263 and 70_reset_and_hazards.md R236 (D11, D22, log 25; line ends: log 15): the text of one
eight-digit literal a line for any image of at most 256 bytes boots to exactly that image's launch state. -/
def Obligations.ProgramTextBootsImage : Prop :=
  ∀ image : List Byte, image.length ≤ 256 → boot (some (programText image)) = State.launch image

/-- 80_host_interface.md R263, R264 (D22, log 25): every line has a content, which is what is left after cutting its comment and
stripping white space at both ends; a line with an empty content is skipped, a line whose content is a non-empty string of 0 and
1 with value at most 255 is that byte, fewer or more than eight digits included, and every other line is malformed. The usual
spelling of a byte has eight digits. (The model's choices: the white-space set, log 15; that a character outside ASCII passes in a
comment and makes a line malformed elsewhere, log 19, where R261 says ASCII text.) -/
def Obligations.LineParsing : Prop :=
  (∀ line, ∃ content, lineContent line content) ∧
  (∀ line content : List Char, lineContent line content →
    (content = [] → parseLine line = .blank) ∧
    (∀ v : Byte, spellsBinary content v.toNat → parseLine line = .literal v) ∧
    (content ≠ [] → (∀ v : Byte, ¬ spellsBinary content v.toNat) → parseLine line = .malformed)) ∧
  ∀ v : Byte, (binaryDigits v).length = 8 ∧ spellsBinary (binaryDigits v) v.toNat

/-- 80_host_interface.md R262 to R265 (D11, D22, log 25; the model's choices: line ends, log 15, and texts with characters
outside ASCII, log 19): every text is the text of some lines; it loads
exactly when none of them is malformed and they hold at most 256 literals, the image is then the literals' bytes in order, lines
with nothing consuming no address, and the machine is in that image's launch state. -/
def Obligations.LoaderReadsEveryLine : Prop :=
  (∀ text, ∃ lines, areLines lines ∧ textOf lines = text) ∧
  ∀ lines, areLines lines →
    ∀ image, (loadImage (some (textOf lines)) = .ok image ↔
        LineKind.malformed ∉ lines.map parseLine ∧ literalBytes (lines.map parseLine) = image ∧ image.length ≤ 256) ∧
      (loadImage (some (textOf lines)) = .ok image → boot (some (textOf lines)) = State.launch image)

/-- 80_host_interface.md R264, R265, 60_exceptions.md R216 and 70_reset_and_hazards.md R233 (D11, log 25; the model's choices:
line ends and white space, log 15, and texts with characters outside ASCII, log 19): which loads fail, and what a failed load
leaves. A
resource that cannot be opened fails with `ProgramNotFound`, every text with a malformed line and at most 256 literals with
`MalformedProgram`, every text with more than 256 literals and no malformed line with `ProgramTooLarge`, and a text with both
with one of the two, which one being open (log 16). Whatever load fails, the machine is faulted with the Loader's reason, PC 0
and no IR in the record, registers, PC, FL and output as after reset, and has no step; of memory nothing is said (log 17). -/
def Obligations.LoaderFaults : Prop :=
  failsToBoot none .programNotFound ∧
  (∀ lines, areLines lines →
    (LineKind.malformed ∈ lines.map parseLine → (literalBytes (lines.map parseLine)).length ≤ 256 →
      failsToBoot (some (textOf lines)) .malformedProgram) ∧
    (LineKind.malformed ∉ lines.map parseLine → 256 < (literalBytes (lines.map parseLine)).length →
      failsToBoot (some (textOf lines)) .programTooLarge) ∧
    (LineKind.malformed ∈ lines.map parseLine → 256 < (literalBytes (lines.map parseLine)).length →
      failsToBoot (some (textOf lines)) .malformedProgram ∨ failsToBoot (some (textOf lines)) .programTooLarge)) ∧
  ∀ (program : Option (List Char)) (reason : FaultReason), loadImage program = .error reason → failsToBoot program reason

/-- 80_host_interface.md R267: exit status 0 for `Halted`, nonzero for `Faulted`, whatever the free value is (log 18). -/
def Obligations.ExitStatusZeroExactlyOnHalt : Prop :=
  ∀ s : State,
    (s.exitStatus = some 0 ↔ s.run = .halted) ∧
    (∀ reason, s.run = .faulted reason → ∃ n, s.exitStatus = some n ∧ n ≠ 0) ∧
    (s.exitStatus = none ↔ s.run = .running)

/-- 40_execution_loop.md R120, R122: the run operation ends exactly at the first state of the sequence of steps whose run state
is terminal. (Fuel is the model's, log 22.) -/
def Obligations.RunEndsAtFirstTerminalState : Prop :=
  ∀ (fuel : Nat) (s t : State),
    runLoop fuel s = some t ↔
      t.run ≠ .running ∧ ∃ k, k ≤ fuel ∧ Sys2Proof.core.run k s = .next t ∧
        ∀ j, j < k → ∃ u : State, Sys2Proof.core.run j s = .next u ∧ u.run = .running

/-- 40_execution_loop.md R121 and the corner case of R174: a JMP to its own address never ends, however much fuel the run has. -/
def Obligations.SelfJumpNeverEnds : Prop :=
  ∀ (s : State) (r : RegIndex), s.run = .running → s.pc.toNat ≤ 254 → s.memRead s.pc = 0b01010100#8 →
    (s.memRead (s.pc + 1#8)).toNat = r.val → s.reg r = s.pc → ∀ fuel, runLoop fuel s = none
end

