-- ==== Sys2Proof/Laws/Decode.lean ====
section
/-! SUPPORT. The Dispatch Table, assembling an instruction from its bytes, and what a decoded list of bytes begins with. -/

namespace Sys2Proof

theorem dispatchTable_opcode (h : Handler) : dispatchTable h.opcode = some h := by cases h <;> rfl

theorem opcode_of_dispatchTable {b : Byte} {h : Handler} (hb : dispatchTable b = some h) : h.opcode = b := by
  simpa using List.find?_some hb

theorem Handler.mem_all (h : Handler) : h ∈ Handler.all := by cases h <;> decide

theorem dispatchTable_eq_none {b : Byte} : dispatchTable b = none ↔ ∀ h : Handler, h.opcode ≠ b := by
  simp only [dispatchTable, List.find?_eq_none, beq_iff_eq]
  exact ⟨fun hn h => hn h h.mem_all, fun hn h _ => hn h⟩

theorem fetchLength_opcode (h : Handler) : fetchLength h.opcode = h.width := by
  rw [fetchLength, dispatchTable_opcode]

theorem Instr.operandBytes_length (i : Instr) : i.operandBytes.length + 1 = i.handler.width := by cases i <;> rfl

theorem encode_length (i : Instr) : (encode i).length = i.handler.width := i.operandBytes_length

theorem Handler.one_le_width (h : Handler) : 1 ≤ h.width := by cases h <;> decide

theorem Handler.width_le_three (h : Handler) : h.width ≤ 3 := by cases h <;> decide

/-- A handler assembles its instruction back from the operand bytes, whatever follows them. -/
theorem Instr.assemble_operandBytes (i : Instr) (rest : List Byte) :
    i.handler.assemble (i.operandBytes ++ rest) = some i := by cases i <;> rfl

/-- What a handler assembles is an instruction of that handler made of the first bytes it is given. -/
theorem Handler.assemble_some {h : Handler} {bytes : List Byte} {i : Instr} (ha : h.assemble bytes = some i) :
    i.handler = h ∧ ∃ rest, bytes = i.operandBytes ++ rest := by
  rcases bytes with _ | ⟨x, _ | ⟨y, rest⟩⟩ <;> cases h <;> cases ha <;> exact ⟨rfl, _, rfl⟩

/-- A handler assembles nothing exactly where bytes are missing. -/
theorem Handler.assemble_none {h : Handler} {bytes : List Byte} :
    h.assemble bytes = none ↔ bytes.length + 1 < h.width := by
  rcases bytes with _ | ⟨x, _ | ⟨y, rest⟩⟩ <;> cases h <;> simp [Handler.assemble, Handler.width]

theorem decode_cons_opcode (h : Handler) (rest : List Byte) :
    decode (h.opcode :: rest) =
      match h.assemble rest with
      | none => .error (.missingOperand h.opcode)
      | some i => .ok i := by
  cases ha : h.assemble rest <;> simp only [decode, dispatchTable_opcode, ha]

/-- What decodes begins with the opcode of the instruction and its operand bytes. -/
theorem decode_ok {bytes : List Byte} {i : Instr} (hd : decode bytes = .ok i) :
    ∃ rest, bytes = i.handler.opcode :: (i.operandBytes ++ rest) := by
  rcases bytes with _ | ⟨ir, rest⟩
  · cases hd
  · rw [decode] at hd
    split at hd
    · cases hd
    · rename_i h hdt
      split at hd
      · cases hd
      · rename_i j hj
        cases hd
        obtain ⟨rfl, more, rfl⟩ := Handler.assemble_some hj
        exact ⟨more, by rw [opcode_of_dispatchTable hdt]⟩

end Sys2Proof
end

