-- ==== Sys2Proof/Laws/State.lean ====
section
/-! SUPPORT. One lemma for each field of the state under each named update, so that no later proof unfolds a record update;
and the two laws of the register file. -/

namespace Sys2Proof.Machine

variable (s : State)

/-! ### memWrite -/

@[simp] theorem State.memWrite_mem (addr v : Byte) : (s.memWrite addr v).mem = s.mem.writeByte addr.toNat v := rfl
@[simp] theorem State.memWrite_regs (addr v : Byte) : (s.memWrite addr v).regs = s.regs := rfl
@[simp] theorem State.memWrite_pc (addr v : Byte) : (s.memWrite addr v).pc = s.pc := rfl
@[simp] theorem State.memWrite_fl (addr v : Byte) : (s.memWrite addr v).fl = s.fl := rfl
@[simp] theorem State.memWrite_run (addr v : Byte) : (s.memWrite addr v).run = s.run := rfl
@[simp] theorem State.memWrite_record (addr v : Byte) : (s.memWrite addr v).record = s.record := rfl
@[simp] theorem State.memWrite_out (addr v : Byte) : (s.memWrite addr v).out = s.out := rfl
@[simp] theorem State.memWrite_reg (addr v : Byte) (j : RegIndex) : (s.memWrite addr v).reg j = s.reg j := rfl
@[simp] theorem State.memWrite_sp (addr v : Byte) : (s.memWrite addr v).sp = s.sp := rfl

/-! ### setReg -/

@[simp] theorem State.setReg_mem (i : RegIndex) (v : Byte) : (s.setReg i v).mem = s.mem := rfl
@[simp] theorem State.setReg_regs (i : RegIndex) (v : Byte) : (s.setReg i v).regs = s.regs.set i v := rfl
@[simp] theorem State.setReg_pc (i : RegIndex) (v : Byte) : (s.setReg i v).pc = s.pc := rfl
@[simp] theorem State.setReg_fl (i : RegIndex) (v : Byte) : (s.setReg i v).fl = s.fl := rfl
@[simp] theorem State.setReg_run (i : RegIndex) (v : Byte) : (s.setReg i v).run = s.run := rfl
@[simp] theorem State.setReg_record (i : RegIndex) (v : Byte) : (s.setReg i v).record = s.record := rfl
@[simp] theorem State.setReg_out (i : RegIndex) (v : Byte) : (s.setReg i v).out = s.out := rfl
@[simp] theorem State.setReg_memRead (i : RegIndex) (v : Byte) (a : Byte) : (s.setReg i v).memRead a = s.memRead a := rfl

/-! ### setPc -/

@[simp] theorem State.setPc_mem (target : Byte) : (s.setPc target).mem = s.mem := rfl
@[simp] theorem State.setPc_regs (target : Byte) : (s.setPc target).regs = s.regs := rfl
@[simp] theorem State.setPc_pc (target : Byte) : (s.setPc target).pc = target := rfl
@[simp] theorem State.setPc_fl (target : Byte) : (s.setPc target).fl = s.fl := rfl
@[simp] theorem State.setPc_run (target : Byte) : (s.setPc target).run = s.run := rfl
@[simp] theorem State.setPc_record (target : Byte) : (s.setPc target).record = s.record := rfl
@[simp] theorem State.setPc_out (target : Byte) : (s.setPc target).out = s.out := rfl
@[simp] theorem State.setPc_reg (target : Byte) (j : RegIndex) : (s.setPc target).reg j = s.reg j := rfl
@[simp] theorem State.setPc_sp (target : Byte) : (s.setPc target).sp = s.sp := rfl
@[simp] theorem State.setPc_memRead (target : Byte) (a : Byte) : (s.setPc target).memRead a = s.memRead a := rfl

/-! ### setFl -/

@[simp] theorem State.setFl_mem (v : Byte) : (s.setFl v).mem = s.mem := rfl
@[simp] theorem State.setFl_regs (v : Byte) : (s.setFl v).regs = s.regs := rfl
@[simp] theorem State.setFl_pc (v : Byte) : (s.setFl v).pc = s.pc := rfl
@[simp] theorem State.setFl_fl (v : Byte) : (s.setFl v).fl = v &&& flMask := rfl
@[simp] theorem State.setFl_run (v : Byte) : (s.setFl v).run = s.run := rfl
@[simp] theorem State.setFl_record (v : Byte) : (s.setFl v).record = s.record := rfl
@[simp] theorem State.setFl_out (v : Byte) : (s.setFl v).out = s.out := rfl
@[simp] theorem State.setFl_reg (v : Byte) (j : RegIndex) : (s.setFl v).reg j = s.reg j := rfl
@[simp] theorem State.setFl_sp (v : Byte) : (s.setFl v).sp = s.sp := rfl
@[simp] theorem State.setFl_memRead (v : Byte) (a : Byte) : (s.setFl v).memRead a = s.memRead a := rfl

/-! ### emit -/

@[simp] theorem State.emit_mem (v : Byte) : (s.emit v).mem = s.mem := rfl
@[simp] theorem State.emit_regs (v : Byte) : (s.emit v).regs = s.regs := rfl
@[simp] theorem State.emit_pc (v : Byte) : (s.emit v).pc = s.pc := rfl
@[simp] theorem State.emit_fl (v : Byte) : (s.emit v).fl = s.fl := rfl
@[simp] theorem State.emit_run (v : Byte) : (s.emit v).run = s.run := rfl
@[simp] theorem State.emit_record (v : Byte) : (s.emit v).record = s.record := rfl
@[simp] theorem State.emit_out (v : Byte) : (s.emit v).out = s.out ++ [v] := rfl
@[simp] theorem State.emit_reg (v : Byte) (j : RegIndex) : (s.emit v).reg j = s.reg j := rfl
@[simp] theorem State.emit_sp (v : Byte) : (s.emit v).sp = s.sp := rfl
@[simp] theorem State.emit_memRead (v : Byte) (a : Byte) : (s.emit v).memRead a = s.memRead a := rfl

/-! ### halt -/

@[simp] theorem State.halt_mem : s.halt.mem = s.mem := rfl
@[simp] theorem State.halt_regs : s.halt.regs = s.regs := rfl
@[simp] theorem State.halt_pc : s.halt.pc = s.pc := rfl
@[simp] theorem State.halt_fl : s.halt.fl = s.fl := rfl
@[simp] theorem State.halt_run : s.halt.run = .halted := rfl
@[simp] theorem State.halt_record : s.halt.record = s.record := rfl
@[simp] theorem State.halt_out : s.halt.out = s.out := rfl
@[simp] theorem State.halt_reg (j : RegIndex) : s.halt.reg j = s.reg j := rfl
@[simp] theorem State.halt_sp : s.halt.sp = s.sp := rfl
@[simp] theorem State.halt_memRead (a : Byte) : s.halt.memRead a = s.memRead a := rfl

/-! ### takeFault -/

@[simp] theorem State.takeFault_mem (reason : FaultReason) (ir : Byte) : (s.takeFault reason ir).mem = s.mem := rfl
@[simp] theorem State.takeFault_regs (reason : FaultReason) (ir : Byte) : (s.takeFault reason ir).regs = s.regs := rfl
@[simp] theorem State.takeFault_pc (reason : FaultReason) (ir : Byte) : (s.takeFault reason ir).pc = s.pc := rfl
@[simp] theorem State.takeFault_fl (reason : FaultReason) (ir : Byte) : (s.takeFault reason ir).fl = s.fl := rfl
@[simp] theorem State.takeFault_run (reason : FaultReason) (ir : Byte) : (s.takeFault reason ir).run = .faulted reason := rfl
@[simp] theorem State.takeFault_record (reason : FaultReason) (ir : Byte) : (s.takeFault reason ir).record = some ⟨reason, s.pc, some ir⟩ := rfl
@[simp] theorem State.takeFault_out (reason : FaultReason) (ir : Byte) : (s.takeFault reason ir).out = s.out := rfl
@[simp] theorem State.takeFault_reg (reason : FaultReason) (ir : Byte) (j : RegIndex) : (s.takeFault reason ir).reg j = s.reg j := rfl
@[simp] theorem State.takeFault_sp (reason : FaultReason) (ir : Byte) : (s.takeFault reason ir).sp = s.sp := rfl
@[simp] theorem State.takeFault_memRead (reason : FaultReason) (ir : Byte) (a : Byte) : (s.takeFault reason ir).memRead a = s.memRead a := rfl

/-! ### takeLoaderFault -/

@[simp] theorem State.takeLoaderFault_mem (reason : FaultReason) : (s.takeLoaderFault reason).mem = s.mem := rfl
@[simp] theorem State.takeLoaderFault_regs (reason : FaultReason) : (s.takeLoaderFault reason).regs = s.regs := rfl
@[simp] theorem State.takeLoaderFault_pc (reason : FaultReason) : (s.takeLoaderFault reason).pc = s.pc := rfl
@[simp] theorem State.takeLoaderFault_fl (reason : FaultReason) : (s.takeLoaderFault reason).fl = s.fl := rfl
@[simp] theorem State.takeLoaderFault_run (reason : FaultReason) : (s.takeLoaderFault reason).run = .faulted reason := rfl
@[simp] theorem State.takeLoaderFault_record (reason : FaultReason) : (s.takeLoaderFault reason).record = some ⟨reason, 0#8, none⟩ := rfl
@[simp] theorem State.takeLoaderFault_out (reason : FaultReason) : (s.takeLoaderFault reason).out = s.out := rfl
@[simp] theorem State.takeLoaderFault_reg (reason : FaultReason) (j : RegIndex) : (s.takeLoaderFault reason).reg j = s.reg j := rfl
@[simp] theorem State.takeLoaderFault_sp (reason : FaultReason) : (s.takeLoaderFault reason).sp = s.sp := rfl
@[simp] theorem State.takeLoaderFault_memRead (reason : FaultReason) (a : Byte) : (s.takeLoaderFault reason).memRead a = s.memRead a := rfl

/-! ### setSp -/

@[simp] theorem State.setSp_mem (v : Byte) : (s.setSp v).mem = s.mem := rfl
@[simp] theorem State.setSp_regs (v : Byte) : (s.setSp v).regs = s.regs.set spIndex v := rfl
@[simp] theorem State.setSp_pc (v : Byte) : (s.setSp v).pc = s.pc := rfl
@[simp] theorem State.setSp_fl (v : Byte) : (s.setSp v).fl = s.fl := rfl
@[simp] theorem State.setSp_run (v : Byte) : (s.setSp v).run = s.run := rfl
@[simp] theorem State.setSp_record (v : Byte) : (s.setSp v).record = s.record := rfl
@[simp] theorem State.setSp_out (v : Byte) : (s.setSp v).out = s.out := rfl
@[simp] theorem State.setSp_memRead (v : Byte) (a : Byte) : (s.setSp v).memRead a = s.memRead a := rfl

/-! ### decSp -/

@[simp] theorem State.decSp_mem : s.decSp.mem = s.mem := rfl
@[simp] theorem State.decSp_regs : s.decSp.regs = s.regs.set spIndex s.pushAddr := rfl
@[simp] theorem State.decSp_pc : s.decSp.pc = s.pc := rfl
@[simp] theorem State.decSp_fl : s.decSp.fl = s.fl := rfl
@[simp] theorem State.decSp_run : s.decSp.run = s.run := rfl
@[simp] theorem State.decSp_record : s.decSp.record = s.record := rfl
@[simp] theorem State.decSp_out : s.decSp.out = s.out := rfl
@[simp] theorem State.decSp_memRead (a : Byte) : s.decSp.memRead a = s.memRead a := rfl

/-! ### incSp -/

@[simp] theorem State.incSp_mem : s.incSp.mem = s.mem := rfl
@[simp] theorem State.incSp_regs : s.incSp.regs = s.regs.set spIndex (s.sp + 1#8) := rfl
@[simp] theorem State.incSp_pc : s.incSp.pc = s.pc := rfl
@[simp] theorem State.incSp_fl : s.incSp.fl = s.fl := rfl
@[simp] theorem State.incSp_run : s.incSp.run = s.run := rfl
@[simp] theorem State.incSp_record : s.incSp.record = s.record := rfl
@[simp] theorem State.incSp_out : s.incSp.out = s.out := rfl
@[simp] theorem State.incSp_memRead (a : Byte) : s.incSp.memRead a = s.memRead a := rfl

/-! ### storeTop -/

@[simp] theorem State.storeTop_mem (v : Byte) : (s.storeTop v).mem = s.mem.writeByte s.sp.toNat v := rfl
@[simp] theorem State.storeTop_regs (v : Byte) : (s.storeTop v).regs = s.regs := rfl
@[simp] theorem State.storeTop_pc (v : Byte) : (s.storeTop v).pc = s.pc := rfl
@[simp] theorem State.storeTop_fl (v : Byte) : (s.storeTop v).fl = s.fl := rfl
@[simp] theorem State.storeTop_run (v : Byte) : (s.storeTop v).run = s.run := rfl
@[simp] theorem State.storeTop_record (v : Byte) : (s.storeTop v).record = s.record := rfl
@[simp] theorem State.storeTop_out (v : Byte) : (s.storeTop v).out = s.out := rfl
@[simp] theorem State.storeTop_reg (v : Byte) (j : RegIndex) : (s.storeTop v).reg j = s.reg j := rfl
@[simp] theorem State.storeTop_sp (v : Byte) : (s.storeTop v).sp = s.sp := rfl

/-! ### The register file -/

theorem State.reg_setReg (i j : RegIndex) (v : Byte) : (s.setReg i v).reg j = if i = j then v else s.reg j := by
  have hij : (i.val = j.val) ↔ i = j := Fin.ext_iff.symm
  simp [State.reg, State.setReg, Vector.getElem_set, hij]

@[simp] theorem State.reg_setReg_same (i : RegIndex) (v : Byte) : (s.setReg i v).reg i = v := by
  simp [State.reg_setReg]

theorem State.reg_setReg_other {i j : RegIndex} (h : i ≠ j) (v : Byte) : (s.setReg i v).reg j = s.reg j := by
  simp [State.reg_setReg, h]

/-- Two register files that read alike are equal. -/
theorem regs_ext {v w : Vector Byte Config.nregs} (h : ∀ j : RegIndex, v[j] = w[j]) : v = w :=
  Vector.ext fun k hk => h ⟨k, hk⟩

@[simp] theorem State.sp_setSp (v : Byte) : (s.setSp v).sp = v := s.reg_setReg_same spIndex v

theorem State.reg_setSp (j : RegIndex) (v : Byte) : (s.setSp v).reg j = if spIndex = j then v else s.reg j :=
  s.reg_setReg spIndex j v

@[simp] theorem State.sp_decSp : s.decSp.sp = s.pushAddr := s.sp_setSp _

theorem State.reg_decSp (j : RegIndex) : s.decSp.reg j = if spIndex = j then s.pushAddr else s.reg j :=
  s.reg_setSp j _

@[simp] theorem State.sp_incSp : s.incSp.sp = s.sp + 1#8 := s.sp_setSp _

theorem State.reg_incSp (j : RegIndex) : s.incSp.reg j = if spIndex = j then s.sp + 1#8 else s.reg j :=
  s.reg_setSp j _

end Sys2Proof.Machine
end

