-- ==== Sys2Proof/Laws/Memory.lean ====
section
/-! SUPPORT. Memory: reading after writing, the canonical form and that every operation keeps it, extensionality. -/

namespace Sys2Proof.Machine

theorem Memory.readByte_cons (c : Host.Cell) (m : Memory) (a : Nat) :
    Memory.readByte (c :: m) a = if c.1 = a then c.2 else m.readByte a := rfl

/-- An address below every listed one is not listed. -/
theorem Memory.readByte_of_forall_lt {m : Memory} {a : Nat} (h : ∀ c ∈ m, a < c.1) : m.readByte a = memReset := by
  induction m with
  | nil => rfl
  | cons c m ih =>
    have := h c (by simp)
    rw [Memory.readByte_cons, if_neg (by omega), ih fun d hd => h d (by simp [hd])]

theorem Memory.readByte_writeByte {m : Memory} (hm : m.wf) (a b : Nat) (v : Byte) :
    (m.writeByte a v).readByte b = if b = a then v else m.readByte b := by
  induction m with
  | nil =>
    by_cases hv : v = memReset <;> by_cases hb : b = a <;> simp_all [Memory.writeByte, Memory.readByte, eq_comm]
  | cons c m ih =>
    obtain ⟨hp, hc⟩ := hm
    rw [List.pairwise_cons] at hp
    have ih := ih ⟨hp.2, fun d hd => hc d (by simp [hd])⟩
    have below : a ≤ c.1 → Memory.readByte m a = memReset := fun h =>
      Memory.readByte_of_forall_lt fun d hd => Nat.lt_of_le_of_lt h (hp.1 d hd)
    rw [Memory.writeByte]
    by_cases h1 : a < c.1
    · by_cases hv : v = memReset
      · rw [if_pos h1, if_pos hv]
        by_cases hb : b = a
        · subst hb
          rw [if_pos rfl, hv, Memory.readByte_cons, if_neg (by omega), below (by omega)]
        · rw [if_neg hb]
      · rw [if_pos h1, if_neg hv, Memory.readByte_cons]
        simp only [eq_comm]
    · by_cases h2 : a = c.1
      · by_cases hv : v = memReset
        · rw [if_neg h1, if_pos h2, if_pos hv]
          by_cases hb : b = a
          · subst hb
            rw [if_pos rfl, hv, below (by omega)]
          · rw [if_neg hb, Memory.readByte_cons, if_neg (by omega)]
        · rw [if_neg h1, if_pos h2, if_neg hv, Memory.readByte_cons, Memory.readByte_cons]
          by_cases hb : b = a
          · rw [if_pos hb.symm, if_pos hb]
          · rw [if_neg (fun h => hb h.symm), if_neg hb, if_neg (by omega)]
      · rw [if_neg h1, if_neg h2, Memory.readByte_cons, Memory.readByte_cons, ih]
        by_cases hb : b = a
        · rw [if_neg (by omega), if_pos hb, if_pos hb]
        · rw [if_neg hb, if_neg hb]

/-- A write leaves every other address alone, in any memory. -/
theorem Memory.readByte_writeByte_other (m : Memory) {a b : Nat} (v : Byte) (h : b ≠ a) :
    (m.writeByte a v).readByte b = m.readByte b := by
  induction m with
  | nil =>
    rw [Memory.writeByte]
    split
    · rfl
    · rw [Memory.readByte_cons, if_neg (Ne.symm h)]
  | cons c m ih =>
    rw [Memory.writeByte]
    split
    · split
      · rfl
      · rw [Memory.readByte_cons, if_neg (Ne.symm h)]
    · split
      · rename_i _ hc
        have hcb : c.1 ≠ b := fun e => h (by omega)
        split
        · rw [Memory.readByte_cons, if_neg hcb]
        · rw [Memory.readByte_cons, if_neg (Ne.symm h), Memory.readByte_cons, if_neg hcb]
      · rw [Memory.readByte_cons, Memory.readByte_cons, ih]

/-- What a written memory lists: the cell written and cells listed before. -/
theorem Memory.mem_writeByte {m : Memory} {a : Nat} {v : Byte} {c : Host.Cell} (h : c ∈ m.writeByte a v) :
    (c = (a, v) ∧ v ≠ memReset) ∨ c ∈ m := by
  induction m with
  | nil =>
    rw [Memory.writeByte] at h
    split at h
    · simp at h
    · exact .inl ⟨by simpa using h, ‹_›⟩
  | cons d m ih =>
    rw [Memory.writeByte] at h
    split at h
    · split at h
      · exact .inr h
      · rcases List.mem_cons.1 h with h | h
        · exact .inl ⟨h, ‹_›⟩
        · exact .inr h
    · split at h
      · split at h
        · exact .inr (List.mem_cons_of_mem _ h)
        · rcases List.mem_cons.1 h with h | h
          · exact .inl ⟨h, ‹_›⟩
          · exact .inr (List.mem_cons_of_mem _ h)
      · rcases List.mem_cons.1 h with h | h
        · exact .inr (h ▸ List.mem_cons_self)
        · exact (ih h).imp_right (List.mem_cons_of_mem _)

/-- A write inside the address space keeps the canonical form. -/
theorem Memory.writeByte_wf {m : Memory} (hm : m.wf) {a : Nat} (ha : a < Config.memSize) (v : Byte) :
    (m.writeByte a v).wf := by
  refine ⟨?_, fun c hc => ?_⟩
  · obtain ⟨hp, -⟩ := hm
    clear ha
    induction m with
    | nil => rw [Memory.writeByte]; split <;> simp
    | cons d m ih =>
      have hp' := List.pairwise_cons.1 hp
      rw [Memory.writeByte]
      split
      · split
        · exact hp
        · refine List.pairwise_cons.2 ⟨fun c hc => ?_, hp⟩
          rcases List.mem_cons.1 hc with rfl | hc
          · assumption
          · exact Nat.lt_trans ‹_› (hp'.1 c hc)
      · split
        · rename_i _ had
          split
          · exact hp'.2
          · exact List.pairwise_cons.2 ⟨fun c hc => had ▸ hp'.1 c hc, hp'.2⟩
        · refine List.pairwise_cons.2 ⟨fun c hc => ?_, ih hp'.2⟩
          rcases Memory.mem_writeByte hc with ⟨rfl, -⟩ | hc
          · show d.1 < a
            omega
          · exact hp'.1 c hc
  · rcases Memory.mem_writeByte hc with ⟨rfl, hv⟩ | hc
    · exact ⟨ha, hv⟩
    · exact hm.2 c hc

theorem byte_lt_memSize (a : Byte) : a.toNat < Config.memSize := a.isLt

theorem State.memWrite_wf {s : State} (h : s.mem.wf) (a v : Byte) : (s.memWrite a v).mem.wf :=
  Memory.writeByte_wf h (byte_lt_memSize a) v

theorem State.storeTop_wf {s : State} (h : s.mem.wf) (v : Byte) : (s.storeTop v).mem.wf := State.memWrite_wf h _ v

theorem Memory.writeBytes_wf {m : Memory} (h : m.wf) (a : Nat) (vs : List Byte) : (m.writeBytes a vs).wf := by
  induction vs generalizing m a with
  | nil => exact h
  | cons v vs ih =>
    rw [Memory.writeBytes]
    split
    · exact ih (Memory.writeByte_wf h ‹_› v) _
    · exact h

theorem Memory.nil_wf : Memory.wf [] := by simp [Memory.wf]

theorem State.reset_mem_wf : State.reset.mem.wf := Memory.nil_wf

/-- Storing a table word where the next step fetches keeps the canonical form. -/
theorem Memory.writeBytes_table_wf {s : State} (h : s.mem.wf) (nbits w : Nat) :
    (s.mem.writeBytes s.pc.toNat (tableBytes nbits w)).wf := Memory.writeBytes_wf h _ _

/-- Reading after writing a run of bytes that fits into memory. -/
theorem Memory.readByte_writeBytes {m : Memory} (hm : m.wf) (a : Nat) (vs : List Byte)
    (hfit : a + vs.length ≤ Config.memSize) (b : Nat) :
    (m.writeBytes a vs).readByte b = if a ≤ b ∧ b < a + vs.length then vs.getD (b - a) memReset else m.readByte b := by
  induction vs generalizing m a with
  | nil => rw [Memory.writeBytes, if_neg (by simp)]
  | cons v vs ih =>
    rw [List.length_cons] at hfit
    have ha : a < Config.memSize := by omega
    rw [Memory.writeBytes, if_pos ha, ih (Memory.writeByte_wf hm ha v) _ (by omega), Memory.readByte_writeByte hm]
    by_cases hb : b = a
    · subst hb
      simp
    · by_cases hin : a + 1 ≤ b ∧ b < a + 1 + vs.length
      · rw [if_pos hin, if_pos (by simp; omega)]
        obtain ⟨k, rfl⟩ : ∃ k, b = a + 1 + k := ⟨b - (a + 1), by omega⟩
        have : a + 1 + k - a = k + 1 := by omega
        rw [this, Nat.add_sub_cancel_left, List.getD_cons_succ]
      · rw [if_neg hin, if_neg hb, if_neg (by simp; omega)]

/-- The first cell of a canonical memory reads as listed, and nothing below it is listed. -/
theorem Memory.readByte_head {c : Host.Cell} {m : Memory} : Memory.readByte (c :: m) c.1 = c.2 := by
  simp [Memory.readByte_cons]

theorem Memory.wf_tail {c : Host.Cell} {m : Memory} (h : Memory.wf (c :: m)) : Memory.wf m :=
  ⟨(List.pairwise_cons.1 h.1).2, fun d hd => h.2 d (List.mem_cons_of_mem _ hd)⟩

theorem Memory.head_lt {c : Host.Cell} {m : Memory} (h : Memory.wf (c :: m)) : ∀ d ∈ m, c.1 < d.1 :=
  (List.pairwise_cons.1 h.1).1

end Sys2Proof.Machine
end

