-- ==== Sys2Proof/Laws/Loader.lean ====
section
/-! SUPPORT. The Loader: lines, stripping, literals, and memory after a load. -/

namespace Sys2Proof.Machine

/-! ### Memory after a load -/

theorem initialFill_wf (image : List Byte) : (initialFill image).wf := Memory.writeBytes_wf Memory.nil_wf _ _

theorem failedLoadMemory_wf (program : Option (List Char)) : (failedLoadMemory program).wf := initialFill_wf _

/-- What an image of at most 256 bytes leaves in memory. -/
theorem readByte_initialFill {image : List Byte} (hl : image.length ≤ 256) (k : Nat) :
    (initialFill image).readByte k = image.getD k memReset := by
  rw [initialFill, Memory.readByte_writeBytes State.reset_mem_wf _ _ (by simpa [Config.memSize] using hl)]
  by_cases h : k < image.length
  · rw [if_pos (by omega), Nat.sub_zero]
  · rw [if_neg (by omega), List.getD_eq_default _ _ (by omega)]
    rfl

theorem boot_of_ok {program : Option (List Char)} {image : List Byte} (h : loadImage program = .ok image) :
    boot program = State.launch image := by rw [boot, h]

theorem boot_of_error {program : Option (List Char)} {reason : FaultReason} (h : loadImage program = .error reason) :
    boot program = { State.reset with mem := failedLoadMemory program }.takeLoaderFault reason := by rw [boot, h]

theorem launch_mem_wf (image : List Byte) : (State.launch image).mem.wf := initialFill_wf image

/-- The memory of a failed load, whatever it is, is what the faulted machine holds. -/
theorem loaderFault_mem (m : Memory) (reason : FaultReason) :
    ({ State.reset with mem := m }.takeLoaderFault reason).mem = m := rfl

theorem boot_mem_wf (program : Option (List Char)) : (boot program).mem.wf := by
  cases h : loadImage program with
  | ok image => rw [boot_of_ok h]; exact launch_mem_wf image
  | error reason =>
    rw [boot_of_error h, loaderFault_mem]
    exact failedLoadMemory_wf program

/-! ### Lines -/

theorem textLines_ne_nil (text : List Char) : textLines text ≠ [] := by
  cases text with
  | nil => simp [textLines]
  | cons c cs =>
    rw [textLines]
    split
    · simp
    · split <;> simp

/-- The first line of a text is what stands before its first line end. -/
theorem textLines_append {line : List Char} (hl : lineEnd ∉ line) (rest : List Char) :
    textLines (line ++ lineEnd :: rest) = line :: textLines rest := by
  induction line with
  | nil => rw [List.nil_append, textLines, if_pos rfl]
  | cons c cs ih =>
    have hc : c ≠ lineEnd := fun e => hl (by simp [e])
    rw [List.cons_append, textLines, if_neg hc, ih fun h => hl (by simp [h])]

/-! ### Stripping and comments -/

theorem cutComment_of_not_mem {line : List Char} (h : '#' ∉ line) : cutComment line = line := by
  rw [cutComment, List.takeWhile_eq_self_iff]
  intro c hc
  have hne : c ≠ '#' := fun e => h (e ▸ hc)
  simpa using hne

theorem cutComment_append {line : List Char} (h : '#' ∉ line) (comment : List Char) :
    cutComment (line ++ '#' :: comment) = line := by
  rw [cutComment, List.takeWhile_append_of_pos, List.takeWhile_cons_of_neg (by simp), List.append_nil]
  intro c hc
  have hne : c ≠ '#' := fun e => h (e ▸ hc)
  simpa using hne

theorem strip_of_blank {line : List Char} (h : ∀ c ∈ line, isBlankChar c = true) : strip line = [] := by
  rw [strip, List.dropWhile_eq_nil_iff.2 h]
  rfl

/-- White space around characters that begin and end with none is stripped. -/
theorem strip_append {before content after : List Char} (hb : ∀ c ∈ before, isBlankChar c = true)
    (ha : ∀ c ∈ after, isBlankChar c = true) (hne : content ≠ []) (hh : ∀ c ∈ content.head?, isBlankChar c = false)
    (hl : ∀ c ∈ content.getLast?, isBlankChar c = false) : strip (before ++ content ++ after) = content := by
  have hdrop : ∀ {l : List Char} (rest : List Char), l ≠ [] → (∀ c ∈ l.head?, isBlankChar c = false) →
      (l ++ rest).dropWhile isBlankChar = l ++ rest := by
    intro l rest hne hlb
    obtain ⟨c, cs, rfl⟩ := List.exists_cons_of_ne_nil hne
    rw [List.cons_append, List.dropWhile_cons_of_neg (by rw [hlb c rfl]; exact Bool.false_ne_true)]
  rw [strip, List.append_assoc, List.dropWhile_append_of_pos hb, hdrop _ hne hh, List.reverse_append,
    List.dropWhile_append_of_pos (by simpa using ha)]
  have := hdrop (l := content.reverse) [] (by simpa using hne) (by simpa using hl)
  rw [List.append_nil] at this
  rw [this, List.reverse_reverse]

/-- Cutting the comment of a line and stripping it leaves its content. -/
theorem strip_cutComment {line content : List Char} (h : lineContent line content) : strip (cutComment line) = content := by
  obtain ⟨before, after, tail, rfl, hba, ht, hc, hh, hl⟩ := h
  have hb : ∀ c ∈ before, isBlankChar c = true := fun c hm => hba c (List.mem_append_left _ hm)
  have ha : ∀ c ∈ after, isBlankChar c = true := fun c hm => hba c (List.mem_append_right _ hm)
  have hash : ∀ {l : List Char}, (∀ c ∈ l, isBlankChar c = true) → '#' ∉ l := fun h hm =>
    absurd (h _ hm) (by decide)
  have hmem : '#' ∉ before ++ content ++ after := by simp [hash hb, hash ha, hc]
  have hcut : cutComment (before ++ content ++ after ++ tail) = before ++ content ++ after := by
    cases tail with
    | nil => rw [List.append_nil, cutComment_of_not_mem hmem]
    | cons c cs =>
      obtain rfl : c = '#' := by simpa using ht
      exact cutComment_append hmem cs
  rw [hcut]
  by_cases hne : content = []
  · subst hne
    rw [List.append_nil]
    exact strip_of_blank hba
  · exact strip_append hb ha hne hh hl

/-! ### Literals -/

theorem mem_binaryDigits {v : Byte} {c : Char} (h : c ∈ binaryDigits v) : c = '0' ∨ c = '1' := by
  rw [binaryDigits, List.mem_map] at h
  obtain ⟨k, -, rfl⟩ := h
  split
  · exact .inr rfl
  · exact .inl rfl

theorem binaryDigits_not_blank {v : Byte} : ∀ c ∈ binaryDigits v, isBlankChar c = false := fun c hc => by
  rcases mem_binaryDigits hc with rfl | rfl <;> rfl

theorem binaryDigits_ne_nil (v : Byte) : binaryDigits v ≠ [] := by simp [binaryDigits]

/-- The value of a string of binary digits is that of its digits read from the last. -/
theorem binaryValue_eq_ofDigits (digits : List Char) :
    binaryValue digits = Nat.ofDigits 2 (digits.reverse.map fun c => if c = '1' then 1 else 0) := by
  induction digits using List.reverseRecOn with
  | nil => rfl
  | append_singleton ds d ih =>
    rw [binaryValue, List.foldl_append, List.reverse_append, List.reverse_singleton, List.singleton_append, List.map_cons,
      Nat.ofDigits_cons, ← ih]
    exact Nat.add_comm _ _

/-- A literal is a string that spells the value of a byte. -/
theorem isLiteral_iff {content : List Char} :
    isLiteral content = true ↔ ∃ v : Byte, spellsBinary content v.toNat := by
  rw [isLiteral, binaryValue_eq_ofDigits]
  simp only [Bool.and_eq_true, Bool.not_eq_true', List.isEmpty_eq_false_iff, List.all_eq_true, Bool.or_eq_true, beq_iff_eq,
    decide_eq_true_eq, spellsBinary]
  constructor
  · rintro ⟨⟨hne, hall⟩, hlt⟩
    exact ⟨BitVec.ofNat 8 _, hne, hall, (Nat.mod_eq_of_lt hlt).symm⟩
  · rintro ⟨v, hne, hall, hv⟩
    exact ⟨⟨hne, hall⟩, hv ▸ v.isLt⟩

/-- A line whose content, stripped, is the eight digits of a byte is that byte's literal. -/
theorem parseLine_of_digits {line : List Char} {v : Byte} (hv : binaryValue (binaryDigits v) = v.toNat)
    (h : strip (cutComment line) = binaryDigits v) : parseLine line = .literal v := by
  have hall : (binaryDigits v).all (fun c => c == '0' || c == '1') = true := by
    rw [List.all_eq_true]
    intro c hc
    rcases mem_binaryDigits hc with rfl | rfl <;> rfl
  have hne : (binaryDigits v).isEmpty = false := by simp [binaryDigits]
  have hlt : binaryValue (binaryDigits v) < Config.memSize := hv ▸ v.isLt
  have hlit : isLiteral (binaryDigits v) = true := by
    rw [isLiteral, hne, hall, decide_eq_true hlt]
    rfl
  rw [parseLine]
  simp only [h, hne, hlit, if_true, Bool.false_eq_true, if_false]
  rw [hv, BitVec.ofNat_toNat, BitVec.setWidth_eq]

theorem parseLine_of_blank {line : List Char} (h : strip (cutComment line) = []) : parseLine line = .blank := by
  rw [parseLine]
  simp [h]

/-- A line whose stripped content is neither empty nor a literal is malformed. -/
theorem parseLine_of_not_literal {line : List Char} (hne : strip (cutComment line) ≠ [])
    (hlit : isLiteral (strip (cutComment line)) = false) : parseLine line = .malformed := by
  rw [parseLine]
  simp [hne, hlit]

/-! ### Lines -/

/-- Splitting the text of some lines gives the lines. -/
theorem textLines_textOf {lines : List (List Char)} (h : areLines lines) : textLines (textOf lines) = lines := by
  obtain ⟨hne, hall⟩ := h
  induction lines with
  | nil => exact absurd rfl hne
  | cons line rest ih =>
    have hline : lineEnd ∉ line := hall line List.mem_cons_self
    cases rest with
    | nil =>
      have key : ∀ l : List Char, lineEnd ∉ l → textLines l = [l] := by
        intro l hl
        induction l with
        | nil => rfl
        | cons c cs ihc =>
          have hc : c ≠ lineEnd := fun e => hl (by simp [e])
          rw [textLines, if_neg hc, ihc fun hm => hl (by simp [hm])]
      simpa [textOf, List.intercalate] using key line hline
    | cons next more =>
      have hrest := ih (by simp) fun l hl => hall l (List.mem_cons_of_mem _ hl)
      have : textOf (line :: next :: more) = line ++ lineEnd :: textOf (next :: more) := by
        simp [textOf, List.intercalate]
      rw [this, textLines_append hline, hrest]

/-- The literals of a text are those of its lines. -/
theorem textLiterals_eq (text : List Char) : textLiterals text = literalBytes ((textLines text).map parseLine) := by
  rw [textLiterals]
  induction textLines text with
  | nil => rfl
  | cons line lines ih => cases h : parseLine line <;> simp [literalBytes, h, ih]

/-- A text is malformed when one of its lines is. -/
theorem textMalformed_iff (text : List Char) :
    textMalformed text = true ↔ LineKind.malformed ∈ (textLines text).map parseLine := by
  simp [textMalformed, List.any_eq_true]

end Sys2Proof.Machine
end

