-- ==== Sys2Proof/Laws/Operands.lean ====
section
/-! SUPPORT. Taking a fault and the operand checks: when each check passes, when it raises, and the one inversion lemma of each:
"if it answers next, then it raised or its rest did". -/

namespace Sys2Proof.Machine

variable {s t : State} {h : Handler} {reason : FaultReason} {ir : Byte}

theorem State.sameData_takeFault (s : State) (reason : FaultReason) (ir : Byte) : s.sameData (s.takeFault reason ir) :=
  ⟨rfl, rfl, rfl, rfl, rfl⟩

/-- Taking a fault is what `raisesFault` says. -/
theorem raisesFault_takeFault (s : State) (reason : FaultReason) (ir : Byte) :
    raisesFault s (.next (s.takeFault reason ir)) reason ir :=
  ⟨_, rfl, rfl, rfl, s.sameData_takeFault reason ir⟩

theorem raisesFault_raise (s : State) (reason : FaultReason) (h : Handler) :
    raisesFault s (raise reason h s) reason h.opcode := raisesFault_takeFault s reason h.opcode

/-- The state a fault leaves is determined. -/
theorem raisesFault_iff {o : Result} : raisesFault s o reason ir ↔ o = .next (s.takeFault reason ir) := by
  constructor
  · rintro ⟨t, rfl, hrun, hrec, hmem, hregs, hpc, hfl, hout⟩
    cases t
    simp_all [State.takeFault]
  · rintro rfl
    exact raisesFault_takeFault s reason ir

theorem raise_eq_next_iff : raise reason h s = .next t ↔ t = s.takeFault reason h.opcode := by
  simp [raise, eq_comm]

/-! ### Register operands -/

theorem withReg_of_names {operand : Byte} {k : RegIndex → Result} {r : RegIndex} (hr : operand.toNat = r.val) :
    withReg h operand s k = k r := by
  have hlt : operand.toNat < Config.nregs := hr ▸ r.isLt
  rw [withReg, dif_pos hlt]
  exact congrArg k (Fin.ext hr)

theorem withReg_of_above {operand : Byte} {k : RegIndex → Result} (hr : 7 < operand.toNat) :
    withReg h operand s k = raise .invalidRegister h s := by
  rw [withReg, dif_neg (by simp only [Config.nregs]; omega)]

/-- An operand byte names a register or is above 7. -/
theorem operand_cases (operand : Byte) : (∃ r : RegIndex, operand.toNat = r.val) ∨ 7 < operand.toNat := by
  by_cases hr : operand.toNat < Config.nregs
  · exact .inl ⟨⟨_, hr⟩, rfl⟩
  · exact .inr (by simp only [Config.nregs] at hr; omega)

theorem withReg_next {operand : Byte} {k : RegIndex → Result} (hk : withReg h operand s k = .next t) :
    (7 < operand.toNat ∧ t = s.takeFault .invalidRegister h.opcode) ∨
      ∃ r : RegIndex, operand.toNat = r.val ∧ k r = .next t := by
  rcases operand_cases operand with ⟨r, hr⟩ | hr
  · exact .inr ⟨r, hr, (withReg_of_names hr).symm.trans hk⟩
  · exact .inl ⟨hr, raise_eq_next_iff.1 ((withReg_of_above hr).symm.trans hk)⟩

theorem withRegs_of_names {opA opB : Byte} {k : RegIndex → RegIndex → Result} {a b : RegIndex}
    (ha : opA.toNat = a.val) (hb : opB.toNat = b.val) : withRegs h opA opB s k = k a b := by
  rw [withRegs, withReg_of_names ha, withReg_of_names hb]

theorem withRegs_of_above {opA opB : Byte} {k : RegIndex → RegIndex → Result} (hr : 7 < opA.toNat ∨ 7 < opB.toNat) :
    withRegs h opA opB s k = raise .invalidRegister h s := by
  rcases operand_cases opA with ⟨a, ha⟩ | ha
  · rw [withRegs, withReg_of_names ha, withReg_of_above (hr.resolve_left (by
      have := a.isLt
      simp only [Config.nregs] at this
      omega))]
  · rw [withRegs, withReg_of_above ha]

theorem withRegs_next {opA opB : Byte} {k : RegIndex → RegIndex → Result} (hk : withRegs h opA opB s k = .next t) :
    ((7 < opA.toNat ∨ 7 < opB.toNat) ∧ t = s.takeFault .invalidRegister h.opcode) ∨
      ∃ a b : RegIndex, opA.toNat = a.val ∧ opB.toNat = b.val ∧ k a b = .next t := by
  rcases withReg_next hk with ⟨ha, ht⟩ | ⟨a, ha, hk⟩
  · exact .inl ⟨.inl ha, ht⟩
  · rcases withReg_next hk with ⟨hb, ht⟩ | ⟨b, hb, hk⟩
    · exact .inl ⟨.inr hb, ht⟩
    · exact .inr ⟨a, b, ha, hb, hk⟩

/-! ### The stack's range -/

theorem withStackRoom_ok {k : Result} : withStackRoom h false s k = k := rfl

theorem withStackRoom_leaves {k : Result} : withStackRoom h true s k = raise .stackFault h s := rfl

theorem withStackRoom_next {leaves : Bool} {k : Result} (hk : withStackRoom h leaves s k = .next t) :
    (leaves = true ∧ t = s.takeFault .stackFault h.opcode) ∨ (leaves = false ∧ k = .next t) := by
  cases leaves
  · exact .inr ⟨rfl, hk⟩
  · exact .inl ⟨rfl, raise_eq_next_iff.1 hk⟩

/-! ### The next sequential PC -/

theorem ofNat_pc_add (s : State) (w : Nat) : BitVec.ofNat 8 (s.pc.toNat + w) = s.pc + BitVec.ofNat 8 w := by
  apply BitVec.eq_of_toNat_eq
  simp [BitVec.toNat_add]

theorem withNextPc_of_lt {k : Byte → Result} (hlt : s.pc.toNat + h.width < 256) :
    withNextPc h s k = k (s.pc + BitVec.ofNat 8 h.width) := by
  rw [withNextPc, if_pos (show _ < Config.memSize from hlt), ofNat_pc_add]

theorem withNextPc_of_le {k : Byte → Result} (hle : 256 ≤ s.pc.toNat + h.width) :
    withNextPc h s k = raise .pcOutOfRange h s := by
  rw [withNextPc, if_neg (by simp only [Config.memSize]; omega)]

theorem withNextPc_next {k : Byte → Result} (hk : withNextPc h s k = .next t) :
    (256 ≤ s.pc.toNat + h.width ∧ t = s.takeFault .pcOutOfRange h.opcode) ∨
      (s.pc.toNat + h.width < 256 ∧ k (s.pc + BitVec.ofNat 8 h.width) = .next t) := by
  rcases Nat.lt_or_ge (s.pc.toNat + h.width) 256 with hlt | hge
  · exact .inr ⟨hlt, (withNextPc_of_lt hlt).symm.trans hk⟩
  · exact .inl ⟨hge, raise_eq_next_iff.1 ((withNextPc_of_le hge).symm.trans hk)⟩

end Sys2Proof.Machine
end

