-- ==== Sys2Proof/Laws/Meanings.lean ====
section
/-! SUPPORT. What each meaning can do, once: a fault of the instruction, or its effect under the conditions of its rule. Later
proofs cite these and do not unfold a meaning. -/

namespace Sys2Proof.Machine

variable {s t : State}

/-- The pc after an instruction that goes on in sequence. -/
abbrev State.nextPc (s : State) (h : Handler) : Byte := s.pc + BitVec.ofNat 8 h.width

/-- The faults a handler can raise: the last three of R201's step faults. -/
abbrev handlerFault (reason : FaultReason) : Prop :=
  reason = .invalidRegister ∨ reason = .stackFault ∨ reason = .pcOutOfRange

/-- The instruction of handler `h`, begun in `s`, took a fault. -/
abbrev tookFault (h : Handler) (s t : State) : Prop :=
  ∃ reason, handlerFault reason ∧ t = s.takeFault reason h.opcode

/-- The narrowed sum, product and difference as numbers. -/
theorem mod256_add (x y : Byte) : mod256 ((x.toNat : Int) + (y.toNat : Int)) = BitVec.ofNat 8 (x.toNat + y.toNat) := by
  rw [mod256, ← Int.natCast_add, BitVec.ofInt_natCast]

theorem mod256_mul (x y : Byte) : mod256 ((x.toNat : Int) * (y.toNat : Int)) = BitVec.ofNat 8 (x.toNat * y.toNat) := by
  rw [mod256, ← Int.natCast_mul, BitVec.ofInt_natCast]

theorem mod256_toNat (n : Int) : ((mod256 n).toNat : Int) = n % 256 := by
  simp only [mod256, BitVec.toNat_ofInt]
  omega

/-- A pushed cell lies one below the stack pointer. -/
theorem State.pushAddr_succ (h : s.sp ≠ 0#8) : s.pushAddr.toNat + 1 = s.sp.toNat := by
  have : s.sp.toNat ≠ 0 := fun e => h (BitVec.eq_of_toNat_eq e)
  simp only [State.pushAddr, BitVec.toNat_sub, BitVec.toNat_ofNat]
  omega

theorem execLdi_cases {r imm8 : Byte} (hx : execLdi r imm8 s = .next t) :
    tookFault .ldi s t ∨ ∃ i : RegIndex, r.toNat = i.val ∧ s.pc.toNat + 3 < 256 ∧
      t = (s.setReg i imm8).setPc (s.nextPc .ldi) := by
  rcases withReg_next hx with ⟨-, ht⟩ | ⟨i, hi, hk⟩
  · exact .inl ⟨_, by simp [handlerFault], ht⟩
  · rcases withNextPc_next hk with ⟨-, ht⟩ | ⟨hpc, hk⟩
    · exact .inl ⟨_, by simp [handlerFault], ht⟩
    · exact .inr ⟨i, hi, hpc, by simpa [eq_comm] using hk⟩

theorem execPrn_cases {r : Byte} (hx : execPrn r s = .next t) :
    tookFault .prn s t ∨ ∃ i : RegIndex, r.toNat = i.val ∧ s.pc.toNat + 2 < 256 ∧
      t = (s.emit (s.reg i)).setPc (s.nextPc .prn) := by
  rcases withReg_next hx with ⟨-, ht⟩ | ⟨i, hi, hk⟩
  · exact .inl ⟨_, by simp [handlerFault], ht⟩
  · rcases withNextPc_next hk with ⟨-, ht⟩ | ⟨hpc, hk⟩
    · exact .inl ⟨_, by simp [handlerFault], ht⟩
    · exact .inr ⟨i, hi, hpc, by simpa [eq_comm] using hk⟩

theorem execHlt_eq (s : State) : execHlt s = .next s.halt := rfl

theorem commitAlu_ok (h : Handler) (npc : Byte) (u : State) : commitAlu h s npc (.ok u) = .next (u.setPc npc) := rfl

theorem execAdd_cases {a b : Byte} (hx : execAdd a b s = .next t) :
    tookFault .add s t ∨ ∃ i j : RegIndex, a.toNat = i.val ∧ b.toNat = j.val ∧ s.pc.toNat + 3 < 256 ∧
      t = (s.setReg i (mod256 (((s.reg i).toNat : Int) + ((s.reg j).toNat : Int)))).setPc (s.nextPc .add) := by
  rcases withRegs_next hx with ⟨-, ht⟩ | ⟨i, j, hi, hj, hk⟩
  · exact .inl ⟨_, by simp [handlerFault], ht⟩
  · rcases withNextPc_next hk with ⟨-, ht⟩ | ⟨hpc, hk⟩
    · exact .inl ⟨_, by simp [handlerFault], ht⟩
    · exact .inr ⟨i, j, hi, hj, hpc, by simpa [alu, commitAlu_ok, eq_comm] using hk⟩

theorem execMul_cases {a b : Byte} (hx : execMul a b s = .next t) :
    tookFault .mul s t ∨ ∃ i j : RegIndex, a.toNat = i.val ∧ b.toNat = j.val ∧ s.pc.toNat + 3 < 256 ∧
      t = (s.setReg i (mod256 (((s.reg i).toNat : Int) * ((s.reg j).toNat : Int)))).setPc (s.nextPc .mul) := by
  rcases withRegs_next hx with ⟨-, ht⟩ | ⟨i, j, hi, hj, hk⟩
  · exact .inl ⟨_, by simp [handlerFault], ht⟩
  · rcases withNextPc_next hk with ⟨-, ht⟩ | ⟨hpc, hk⟩
    · exact .inl ⟨_, by simp [handlerFault], ht⟩
    · exact .inr ⟨i, j, hi, hj, hpc, by simpa [alu, commitAlu_ok, eq_comm] using hk⟩

/-- Clearing FL and setting a comparison's flag leaves that flag alone. -/
theorem setFl_compareFlag (s : State) (x y : Byte) :
    (s.setFl 0#8).setFl ((s.setFl 0#8).fl ||| compareFlag x y) = { s with fl := compareFlag x y } := by
  have : compareFlag x y &&& flMask = compareFlag x y := by
    unfold compareFlag
    split
    · decide
    · split <;> decide
  simp [State.setFl, this]

theorem execCmp_cases {a b : Byte} (hx : execCmp a b s = .next t) :
    tookFault .cmp s t ∨ ∃ i j : RegIndex, a.toNat = i.val ∧ b.toNat = j.val ∧ s.pc.toNat + 3 < 256 ∧
      t = { s with fl := compareFlag (s.reg i) (s.reg j), pc := s.nextPc .cmp } := by
  rcases withRegs_next hx with ⟨-, ht⟩ | ⟨i, j, hi, hj, hk⟩
  · exact .inl ⟨_, by simp [handlerFault], ht⟩
  · rcases withNextPc_next hk with ⟨-, ht⟩ | ⟨hpc, hk⟩
    · exact .inl ⟨_, by simp [handlerFault], ht⟩
    · refine .inr ⟨i, j, hi, hj, hpc, ?_⟩
      simp only [alu, commitAlu_ok, Host.Outcome.next.injEq] at hk
      rw [← hk, setFl_compareFlag]
      rfl

theorem execPush_cases {r : Byte} (hx : execPush r s = .next t) :
    tookFault .push s t ∨ ∃ i : RegIndex, r.toNat = i.val ∧ s.sp ≠ 0#8 ∧ s.pc.toNat + 2 < 256 ∧
      t = (s.decSp.storeTop (s.decSp.reg i)).setPc (s.nextPc .push) := by
  rcases withReg_next hx with ⟨-, ht⟩ | ⟨i, hi, hk⟩
  · exact .inl ⟨_, by simp [handlerFault], ht⟩
  · rcases withStackRoom_next hk with ⟨-, ht⟩ | ⟨hsp, hk⟩
    · exact .inl ⟨_, by simp [handlerFault], ht⟩
    · rcases withNextPc_next hk with ⟨-, ht⟩ | ⟨hpc, hk⟩
      · exact .inl ⟨_, by simp [handlerFault], ht⟩
      · exact .inr ⟨i, hi, by simpa using hsp, hpc, by simpa [eq_comm] using hk⟩

/-- The value a POP's increment acts on (R162). -/
abbrev State.popped (s : State) (i : RegIndex) : Byte := if i = spIndex then s.loadTop else s.sp

theorem execPop_cases {r : Byte} (hx : execPop r s = .next t) :
    tookFault .pop s t ∨ ∃ i : RegIndex, r.toNat = i.val ∧ s.popped i ≠ 255#8 ∧ s.pc.toNat + 2 < 256 ∧
      t = (s.setReg i s.loadTop).incSp.setPc (s.nextPc .pop) := by
  rcases withReg_next hx with ⟨-, ht⟩ | ⟨i, hi, hk⟩
  · exact .inl ⟨_, by simp [handlerFault], ht⟩
  · rcases withStackRoom_next hk with ⟨-, ht⟩ | ⟨hsp, hk⟩
    · exact .inl ⟨_, by simp [handlerFault], ht⟩
    · rcases withNextPc_next hk with ⟨-, ht⟩ | ⟨hpc, hk⟩
      · exact .inl ⟨_, by simp [handlerFault], ht⟩
      · refine .inr ⟨i, hi, fun h => ?_, hpc, by simpa [eq_comm] using hk⟩
        rw [beq_eq_false_iff_ne] at hsp
        exact hsp h

theorem execCall_cases {r : Byte} (hx : execCall r s = .next t) :
    tookFault .call s t ∨ ∃ i : RegIndex, r.toNat = i.val ∧ s.sp ≠ 0#8 ∧ s.pc.toNat + 2 < 256 ∧
      t = (s.decSp.storeTop (s.nextPc .call)).setPc (s.decSp.reg i) := by
  rcases withReg_next hx with ⟨-, ht⟩ | ⟨i, hi, hk⟩
  · exact .inl ⟨_, by simp [handlerFault], ht⟩
  · rcases withStackRoom_next hk with ⟨-, ht⟩ | ⟨hsp, hk⟩
    · exact .inl ⟨_, by simp [handlerFault], ht⟩
    · rcases withNextPc_next hk with ⟨-, ht⟩ | ⟨hpc, hk⟩
      · exact .inl ⟨_, by simp [handlerFault], ht⟩
      · exact .inr ⟨i, hi, by simpa using hsp, hpc, by simpa [eq_comm] using hk⟩

theorem execRet_cases (hx : execRet s = .next t) :
    tookFault .ret s t ∨ (s.sp ≠ 255#8 ∧ t = (s.setPc s.loadTop).incSp) := by
  rcases withStackRoom_next hx with ⟨-, ht⟩ | ⟨hsp, hk⟩
  · exact .inl ⟨_, by simp [handlerFault], ht⟩
  · exact .inr ⟨by simpa using hsp, by simpa [eq_comm] using hk⟩

theorem execJmp_cases {r : Byte} (hx : execJmp r s = .next t) :
    tookFault .jmp s t ∨ ∃ i : RegIndex, r.toNat = i.val ∧ t = s.setPc (s.reg i) := by
  rcases withReg_next hx with ⟨-, ht⟩ | ⟨i, hi, hk⟩
  · exact .inl ⟨_, by simp [handlerFault], ht⟩
  · exact .inr ⟨i, hi, by simpa [eq_comm] using hk⟩

theorem execJeq_cases {r : Byte} (hx : execJeq r s = .next t) :
    tookFault .jeq s t ∨ ∃ i : RegIndex, r.toNat = i.val ∧
      ((s.flagE = true ∧ t = s.setPc (s.reg i)) ∨
        (s.flagE = false ∧ s.pc.toNat + 2 < 256 ∧ t = s.setPc (s.nextPc .jeq))) := by
  rcases withReg_next hx with ⟨-, ht⟩ | ⟨i, hi, hk⟩
  · exact .inl ⟨_, by simp [handlerFault], ht⟩
  · cases hE : s.flagE <;> simp only [hE, if_true, if_false, Bool.false_eq_true] at hk
    · rcases withNextPc_next hk with ⟨-, ht⟩ | ⟨hpc, hk⟩
      · exact .inl ⟨_, by simp [handlerFault], ht⟩
      · exact .inr ⟨i, hi, .inr ⟨rfl, hpc, by simpa [eq_comm] using hk⟩⟩
    · exact .inr ⟨i, hi, .inl ⟨rfl, by simpa [eq_comm] using hk⟩⟩

theorem execJne_cases {r : Byte} (hx : execJne r s = .next t) :
    tookFault .jne s t ∨ ∃ i : RegIndex, r.toNat = i.val ∧
      ((s.flagE = false ∧ t = s.setPc (s.reg i)) ∨
        (s.flagE = true ∧ s.pc.toNat + 2 < 256 ∧ t = s.setPc (s.nextPc .jne))) := by
  rcases withReg_next hx with ⟨-, ht⟩ | ⟨i, hi, hk⟩
  · exact .inl ⟨_, by simp [handlerFault], ht⟩
  · cases hE : s.flagE <;> simp only [hE, if_true, if_false, Bool.false_eq_true] at hk
    · exact .inr ⟨i, hi, .inl ⟨rfl, by simpa [eq_comm] using hk⟩⟩
    · rcases withNextPc_next hk with ⟨-, ht⟩ | ⟨hpc, hk⟩
      · exact .inl ⟨_, by simp [handlerFault], ht⟩
      · exact .inr ⟨i, hi, .inr ⟨rfl, hpc, by simpa [eq_comm] using hk⟩⟩

/-- Everything an instruction that completes can have done, as one relation: what the thirteen `_cases` lemmas say. -/
inductive Completes (s : State) : Instr → State → Prop
  | ldi {r imm8 : Byte} (i : RegIndex) (hr : r.toNat = i.val) (hpc : s.pc.toNat + 3 < 256) :
      Completes s (.ldi r imm8) ((s.setReg i imm8).setPc (s.nextPc .ldi))
  | prn {r : Byte} (i : RegIndex) (hr : r.toNat = i.val) (hpc : s.pc.toNat + 2 < 256) :
      Completes s (.prn r) ((s.emit (s.reg i)).setPc (s.nextPc .prn))
  | hlt : Completes s .hlt s.halt
  | add {a b : Byte} (i j : RegIndex) (ha : a.toNat = i.val) (hb : b.toNat = j.val) (hpc : s.pc.toNat + 3 < 256) :
      Completes s (.add a b)
        ((s.setReg i (mod256 (((s.reg i).toNat : Int) + ((s.reg j).toNat : Int)))).setPc (s.nextPc .add))
  | mul {a b : Byte} (i j : RegIndex) (ha : a.toNat = i.val) (hb : b.toNat = j.val) (hpc : s.pc.toNat + 3 < 256) :
      Completes s (.mul a b)
        ((s.setReg i (mod256 (((s.reg i).toNat : Int) * ((s.reg j).toNat : Int)))).setPc (s.nextPc .mul))
  | push {r : Byte} (i : RegIndex) (hr : r.toNat = i.val) (hsp : s.sp ≠ 0#8) (hpc : s.pc.toNat + 2 < 256) :
      Completes s (.push r) ((s.decSp.storeTop (s.decSp.reg i)).setPc (s.nextPc .push))
  | pop {r : Byte} (i : RegIndex) (hr : r.toNat = i.val) (hsp : s.popped i ≠ 255#8) (hpc : s.pc.toNat + 2 < 256) :
      Completes s (.pop r) ((s.setReg i s.loadTop).incSp.setPc (s.nextPc .pop))
  | call {r : Byte} (i : RegIndex) (hr : r.toNat = i.val) (hsp : s.sp ≠ 0#8) (hpc : s.pc.toNat + 2 < 256) :
      Completes s (.call r) ((s.decSp.storeTop (s.nextPc .call)).setPc (s.decSp.reg i))
  | ret (hsp : s.sp ≠ 255#8) : Completes s .ret ((s.setPc s.loadTop).incSp)
  | cmp {a b : Byte} (i j : RegIndex) (ha : a.toNat = i.val) (hb : b.toNat = j.val) (hpc : s.pc.toNat + 3 < 256) :
      Completes s (.cmp a b) { s with fl := compareFlag (s.reg i) (s.reg j), pc := s.nextPc .cmp }
  | jmp {r : Byte} (i : RegIndex) (hr : r.toNat = i.val) : Completes s (.jmp r) (s.setPc (s.reg i))
  | jeqTaken {r : Byte} (i : RegIndex) (hr : r.toNat = i.val) (hE : s.flagE = true) :
      Completes s (.jeq r) (s.setPc (s.reg i))
  | jeqNot {r : Byte} (i : RegIndex) (hr : r.toNat = i.val) (hE : s.flagE = false) (hpc : s.pc.toNat + 2 < 256) :
      Completes s (.jeq r) (s.setPc (s.nextPc .jeq))
  | jneTaken {r : Byte} (i : RegIndex) (hr : r.toNat = i.val) (hE : s.flagE = false) :
      Completes s (.jne r) (s.setPc (s.reg i))
  | jneNot {r : Byte} (i : RegIndex) (hr : r.toNat = i.val) (hE : s.flagE = true) (hpc : s.pc.toNat + 2 < 256) :
      Completes s (.jne r) (s.setPc (s.nextPc .jne))

/-- The inversion lemma of `exec`: an instruction took a fault or completed. -/
theorem exec_cases {i : Instr} (hx : exec i s = .next t) : tookFault i.handler s t ∨ Completes s i t := by
  cases i with
  | ldi r imm8 => exact (execLdi_cases hx).imp_right fun ⟨i, hi, hpc, ht⟩ => ht ▸ .ldi i hi hpc
  | prn r => exact (execPrn_cases hx).imp_right fun ⟨i, hi, hpc, ht⟩ => ht ▸ .prn i hi hpc
  | hlt =>
    cases hx
    exact .inr .hlt
  | add a b => exact (execAdd_cases hx).imp_right fun ⟨i, j, hi, hj, hpc, ht⟩ => ht ▸ .add i j hi hj hpc
  | mul a b => exact (execMul_cases hx).imp_right fun ⟨i, j, hi, hj, hpc, ht⟩ => ht ▸ .mul i j hi hj hpc
  | push r => exact (execPush_cases hx).imp_right fun ⟨i, hi, hsp, hpc, ht⟩ => ht ▸ .push i hi hsp hpc
  | pop r => exact (execPop_cases hx).imp_right fun ⟨i, hi, hsp, hpc, ht⟩ => ht ▸ .pop i hi hsp hpc
  | call r => exact (execCall_cases hx).imp_right fun ⟨i, hi, hsp, hpc, ht⟩ => ht ▸ .call i hi hsp hpc
  | ret => exact (execRet_cases hx).imp_right fun ⟨hsp, ht⟩ => ht ▸ .ret hsp
  | cmp a b => exact (execCmp_cases hx).imp_right fun ⟨i, j, hi, hj, hpc, ht⟩ => ht ▸ .cmp i j hi hj hpc
  | jmp r => exact (execJmp_cases hx).imp_right fun ⟨i, hi, ht⟩ => ht ▸ .jmp i hi
  | jeq r =>
    refine (execJeq_cases hx).imp_right ?_
    rintro ⟨i, hi, ⟨hE, rfl⟩ | ⟨hE, hpc, rfl⟩⟩
    · exact .jeqTaken i hi hE
    · exact .jeqNot i hi hE hpc
  | jne r =>
    refine (execJne_cases hx).imp_right ?_
    rintro ⟨i, hi, ⟨hE, rfl⟩ | ⟨hE, hpc, rfl⟩⟩
    · exact .jneTaken i hi hE
    · exact .jneNot i hi hE hpc

/-- Completing does not touch the fault record, and it touches the run state only by halting. -/
theorem Completes.run_record {i : Instr} (hc : Completes s i t) :
    t.record = s.record ∧ (t.run = s.run ∨ (i = .hlt ∧ t.run = .halted)) := by
  cases hc <;> simp

/-- An instruction that left the machine running, begun in a running machine, completed. -/
theorem exec_completes {i : Instr} (hx : exec i s = .next t) (ht : t.run = .running) : Completes s i t := by
  rcases exec_cases hx with ⟨reason, -, rfl⟩ | hc
  · simp at ht
  · exact hc

/-- And conversely: what completes is what `exec` answers. -/
theorem Completes.exec_eq {i : Instr} (hc : Completes s i t) : exec i s = .next t := by
  cases hc with
  | ldi i hr hpc => rw [exec, execLdi, withReg_of_names hr, withNextPc_of_lt (h := .ldi) hpc]
  | prn i hr hpc => rw [exec, execPrn, withReg_of_names hr, withNextPc_of_lt (h := .prn) hpc]
  | hlt => rfl
  | add i j ha hb hpc => rw [exec, execAdd, withRegs_of_names ha hb, withNextPc_of_lt (h := .add) hpc]; rfl
  | mul i j ha hb hpc => rw [exec, execMul, withRegs_of_names ha hb, withNextPc_of_lt (h := .mul) hpc]; rfl
  | push i hr hsp hpc =>
    rw [exec, execPush, withReg_of_names hr, beq_eq_false_iff_ne.2 hsp, withStackRoom_ok, withNextPc_of_lt (h := .push) hpc]
  | pop i hr hsp hpc =>
    rw [exec, execPop, withReg_of_names hr]
    show withStackRoom .pop (s.popped i == 255#8) s _ = _
    rw [beq_eq_false_iff_ne.2 hsp, withStackRoom_ok, withNextPc_of_lt (h := .pop) hpc]
  | call i hr hsp hpc =>
    rw [exec, execCall, withReg_of_names hr, beq_eq_false_iff_ne.2 hsp, withStackRoom_ok, withNextPc_of_lt (h := .call) hpc]
  | ret hsp => rw [exec, execRet, beq_eq_false_iff_ne.2 hsp, withStackRoom_ok]
  | cmp i j ha hb hpc =>
    rw [exec, execCmp, withRegs_of_names ha hb, withNextPc_of_lt (h := .cmp) hpc]
    simp only [alu, commitAlu_ok]
    rw [setFl_compareFlag]
    rfl
  | jmp i hr => rw [exec, execJmp, withReg_of_names hr]
  | jeqTaken i hr hE => rw [exec, execJeq, withReg_of_names hr, if_pos hE]
  | jeqNot i hr hE hpc =>
    rw [exec, execJeq, withReg_of_names hr, if_neg (by simp [hE]), withNextPc_of_lt (h := .jeq) hpc]
  | jneTaken i hr hE => rw [exec, execJne, withReg_of_names hr, if_neg (by simp [hE])]
  | jneNot i hr hE hpc =>
    rw [exec, execJne, withReg_of_names hr, if_pos hE, withNextPc_of_lt (h := .jne) hpc]

end Sys2Proof.Machine
end

