-- ==== Sys2Proof/Laws/PerInstr.lean ====
section
/-! SUPPORT. Statements for all instructions, made per instruction. Family `RoundTrip`: an instruction's encoding has the width
of R82 and decodes back to it, whatever bytes follow. -/

namespace Sys2Proof.Laws.RoundTrip

/-- The encoding has the width of the instruction and decodes to the instruction. -/
def Statement (i : Instr) : Prop :=
  (encode i).length = i.handler.width ∧ ∀ rest : List Byte, decode (encode i ++ rest) = .ok i

theorem of_assemble (i : Instr) : Statement i := by
  refine ⟨encode_length i, fun rest => ?_⟩
  rw [encode, List.cons_append, decode_cons_opcode, i.assemble_operandBytes]

theorem ldi (r imm8 : Byte) : Statement (.ldi r imm8) := of_assemble _
theorem prn (r : Byte) : Statement (.prn r) := of_assemble _
theorem hlt : Statement .hlt := of_assemble _
theorem add (a b : Byte) : Statement (.add a b) := of_assemble _
theorem mul (a b : Byte) : Statement (.mul a b) := of_assemble _
theorem push (r : Byte) : Statement (.push r) := of_assemble _
theorem pop (r : Byte) : Statement (.pop r) := of_assemble _
theorem call (r : Byte) : Statement (.call r) := of_assemble _
theorem ret : Statement .ret := of_assemble _
theorem cmp (a b : Byte) : Statement (.cmp a b) := of_assemble _
theorem jmp (r : Byte) : Statement (.jmp r) := of_assemble _
theorem jeq (r : Byte) : Statement (.jeq r) := of_assemble _
theorem jne (r : Byte) : Statement (.jne r) := of_assemble _

end Sys2Proof.Laws.RoundTrip
end

