-- ==== Sys2Proof/Laws/Step.lean ====
section
/-! SUPPORT. Fetching and the step: which bytes a fetch reads, what it answers, and the inversion lemma of `step`. -/

namespace Sys2Proof.Machine

variable {s t : State}

/-! ### The bytes of a fetch -/

theorem Memory.bytesFrom_succ (m : Memory) {n a : Nat} (ha : a < 256) :
    m.bytesFrom (n + 1) a = m.readByte a :: m.bytesFrom n (a + 1) := by
  rw [Memory.bytesFrom, if_pos (show a < Config.memSize from ha)]

theorem Memory.bytesFrom_length (m : Memory) (n a : Nat) : (m.bytesFrom n a).length = min n (256 - a) := by
  induction n generalizing a with
  | zero => simp [Memory.bytesFrom]
  | succ n ih =>
    rw [Memory.bytesFrom, show Config.memSize = 256 from rfl]
    split
    · rw [List.length_cons, ih]
      omega
    · simp
      omega

theorem Memory.bytesFrom_take (m : Memory) (k n a : Nat) : (m.bytesFrom n a).take k = m.bytesFrom (min k n) a := by
  induction n generalizing k a with
  | zero => simp [Memory.bytesFrom]
  | succ n ih =>
    cases k with
    | zero => simp [Memory.bytesFrom]
    | succ k =>
      rw [Nat.succ_min_succ, Memory.bytesFrom, Memory.bytesFrom]
      split
      · rw [List.take_succ_cons, ih]
      · rfl

theorem Memory.bytesFrom_eq_map (m : Memory) {n a : Nat} (hfit : a + n ≤ 256) :
    m.bytesFrom n a = (List.range n).map fun k => m.readByte (a + k) := by
  induction n generalizing a with
  | zero => rfl
  | succ n ih =>
    rw [m.bytesFrom_succ (by omega), ih (by omega), List.range_succ_eq_map]
    simp [Nat.add_assoc, Nat.add_comm 1]

theorem toNat_add_small (b : Byte) {k : Nat} (hk : b.toNat + k < 256) : (b + BitVec.ofNat 8 k).toNat = b.toNat + k := by
  simp [BitVec.toNat_add]
  omega

theorem State.memRead_pc_add (s : State) {k : Nat} (hk : s.pc.toNat + k < 256) :
    s.memRead (s.pc + BitVec.ofNat 8 k) = s.mem.readByte (s.pc.toNat + k) := by
  rw [State.memRead, toNat_add_small _ hk]

/-- A fetch that finds the opcode of `h` reads `h.width` bytes. -/
theorem State.instrBytes_of_opcode {h : Handler} (hir : s.ir = h.opcode) :
    s.instrBytes = h.opcode :: s.mem.bytesFrom (h.width - 1) (s.pc.toNat + 1) := by
  have hw : h.width = h.width - 1 + 1 := by have := h.one_le_width; omega
  rw [State.instrBytes, hir, fetchLength_opcode, hw, s.mem.bytesFrom_succ s.pc.isLt, ← hw, ← hir]
  rfl

/-! ### What a fetch answers -/

/-- A fetch that finds an instruction's opcode and operand bytes gives that instruction. -/
theorem State.fetch_of_bytes {i : Instr} (hir : s.ir = i.handler.opcode)
    (ho : s.mem.bytesFrom (i.handler.width - 1) (s.pc.toNat + 1) = i.operandBytes) : s.fetch = .ok i := by
  have ha := i.assemble_operandBytes []
  rw [List.append_nil] at ha
  rw [State.fetch, State.instrBytes_of_opcode hir, ho, decode_cons_opcode, ha]

/-- A fetch whose operand bytes lie in memory gives the instruction they make. -/
theorem State.fetch_of_fits {h : Handler} (hir : s.ir = h.opcode) (hfit : s.pc.toNat + h.width ≤ 256) :
    ∃ i : Instr, i.handler = h ∧ i.operandBytes = s.mem.bytesFrom (h.width - 1) (s.pc.toNat + 1) ∧ s.fetch = .ok i := by
  have hlen := s.mem.bytesFrom_length (h.width - 1) (s.pc.toNat + 1)
  have hw := h.one_le_width
  cases ha : h.assemble (s.mem.bytesFrom (h.width - 1) (s.pc.toNat + 1)) with
  | none =>
    rw [Handler.assemble_none] at ha
    omega
  | some i =>
    obtain ⟨hi, rest, hrest⟩ := Handler.assemble_some ha
    have : rest = [] := by
      have h1 := congrArg List.length hrest
      have h2 := i.operandBytes_length
      rw [List.length_append] at h1
      rw [hi] at h2
      exact List.eq_nil_of_length_eq_zero (by omega)
    refine ⟨i, hi, by rw [hrest, this, List.append_nil], ?_⟩
    rw [State.fetch, State.instrBytes_of_opcode hir, decode_cons_opcode, ha]

/-- A fetch whose operand bytes would reach above address 255 raises `PcOutOfRange`. -/
theorem State.fetch_of_beyond {h : Handler} (hir : s.ir = h.opcode) (hfit : 256 < s.pc.toNat + h.width) :
    s.fetch = .error .pcOutOfRange := by
  have hlen := s.mem.bytesFrom_length (h.width - 1) (s.pc.toNat + 1)
  have hw := h.one_le_width
  have ha : h.assemble (s.mem.bytesFrom (h.width - 1) (s.pc.toNat + 1)) = none := Handler.assemble_none.2 (by omega)
  rw [State.fetch, State.instrBytes_of_opcode hir, decode_cons_opcode, ha]
  rfl

/-- A fetch that finds no opcode raises `UnknownOpcode`. -/
theorem State.fetch_of_unknown (hir : dispatchTable s.ir = none) : s.fetch = .error .unknownOpcode := by
  have hb : s.instrBytes = [s.ir] := by
    rw [State.instrBytes, show fetchLength s.ir = 0 + 1 by rw [fetchLength, hir], s.mem.bytesFrom_succ s.pc.isLt]
    rfl
  rw [State.fetch, hb, decode, hir]
  rfl

/-- The three ways a fetch goes. -/
theorem State.fetch_cases (s : State) :
    (dispatchTable s.ir = none ∧ s.fetch = .error .unknownOpcode) ∨
    ∃ h : Handler, s.ir = h.opcode ∧
      ((256 < s.pc.toNat + h.width ∧ s.fetch = .error .pcOutOfRange) ∨
        (s.pc.toNat + h.width ≤ 256 ∧ ∃ i : Instr, i.handler = h ∧
          i.operandBytes = s.mem.bytesFrom (h.width - 1) (s.pc.toNat + 1) ∧ s.fetch = .ok i)) := by
  cases hd : dispatchTable s.ir with
  | none => exact .inl ⟨rfl, State.fetch_of_unknown hd⟩
  | some h =>
    have hir := (opcode_of_dispatchTable hd).symm
    refine .inr ⟨h, hir, ?_⟩
    rcases Nat.lt_or_ge 256 (s.pc.toNat + h.width) with hlt | hge
    · exact .inl ⟨hlt, State.fetch_of_beyond hir hlt⟩
    · exact .inr ⟨hge, State.fetch_of_fits hir hge⟩

theorem State.ir_of_fetch_ok {i : Instr} (hf : s.fetch = .ok i) : s.ir = i.handler.opcode := by
  rcases s.fetch_cases with ⟨-, he⟩ | ⟨h, hir, ⟨-, he⟩ | ⟨-, j, hj, -, he⟩⟩
  · simp [he] at hf
  · simp [he] at hf
  · rw [he] at hf
    cases hf
    rw [hir, hj]

/-! ### The step -/

theorem step_of_fetch_ok {i : Instr} (hs : s.run = .running) (hf : s.fetch = .ok i) : step s = exec i s := by
  rw [step, hs]
  simp only [hf]

theorem step_of_fetch_error {reason : FaultReason} (hs : s.run = .running) (hf : s.fetch = .error reason) :
    step s = .next (s.takeFault reason s.ir) := by
  rw [step, hs]
  simp only [hf]

/-- The inversion lemma of `step`: it ran in run state `Running`, and the fetch faulted or the instruction fetched ran. -/
theorem step_cases (hx : step s = .next t) :
    s.run = .running ∧
      ((∃ reason, s.fetch = .error reason ∧ t = s.takeFault reason s.ir) ∨ ∃ i, s.fetch = .ok i ∧ exec i s = .next t) := by
  have hrun : s.run = .running := by
    rw [step] at hx
    split at hx <;> simp_all
  refine ⟨hrun, ?_⟩
  cases hf : s.fetch with
  | ok i => exact .inr ⟨i, rfl, step_of_fetch_ok hrun hf ▸ hx⟩
  | error reason =>
    rw [step_of_fetch_error hrun hf] at hx
    cases hx
    exact .inl ⟨reason, rfl, rfl⟩

/-- Everything a step can do: take a fault with the opcode byte fetched as IR, or complete the instruction fetched. The
faults are the four a step can raise (R201). -/
theorem step_outcome (hx : step s = .next t) :
    s.run = .running ∧
      ((∃ reason, (reason = .unknownOpcode ∨ handlerFault reason) ∧ t = s.takeFault reason s.ir) ∨
        ∃ i, s.fetch = .ok i ∧ Completes s i t) := by
  obtain ⟨hrun, ⟨reason, hf, ht⟩ | ⟨i, hf, hi⟩⟩ := step_cases hx
  · refine ⟨hrun, .inl ⟨reason, ?_, ht⟩⟩
    rcases s.fetch_cases with ⟨-, he⟩ | ⟨h, -, ⟨-, he⟩ | ⟨-, j, -, -, he⟩⟩ <;> rw [he] at hf <;> cases hf <;> simp [handlerFault]
  · refine ⟨hrun, (exec_cases hi).imp ?_ fun hc => ⟨i, hf, hc⟩⟩
    rintro ⟨reason, hr, ht⟩
    exact ⟨reason, .inr hr, by rw [ht, State.ir_of_fetch_ok hf]⟩

/-! ### Every instruction answers a next state -/

/-- The result is a next state: of the instruction's effect or of a fault. -/
abbrev answersNext (o : Result) : Prop := ∃ t, o = .next t

theorem raise_answers (reason : FaultReason) (h : Handler) (s : State) : answersNext (raise reason h s) := ⟨_, rfl⟩

theorem withReg_answers (h : Handler) (operand : Byte) {k : RegIndex → Result} (hk : ∀ r, answersNext (k r)) :
    answersNext (withReg h operand s k) := by
  rw [withReg]
  split
  · exact hk _
  · exact raise_answers _ _ _

theorem withRegs_answers (h : Handler) (opA opB : Byte) {k : RegIndex → RegIndex → Result}
    (hk : ∀ a b, answersNext (k a b)) : answersNext (withRegs h opA opB s k) :=
  withReg_answers h opA fun a => withReg_answers h opB fun b => hk a b

theorem withStackRoom_answers (h : Handler) (leaves : Bool) {k : Result} (hk : answersNext k) :
    answersNext (withStackRoom h leaves s k) := by
  cases leaves
  · exact hk
  · exact raise_answers _ _ _

theorem withNextPc_answers (h : Handler) {k : Byte → Result} (hk : ∀ npc, answersNext (k npc)) :
    answersNext (withNextPc h s k) := by
  rw [withNextPc]
  split
  · exact hk _
  · exact raise_answers _ _ _

theorem commitAlu_answers (h : Handler) (npc : Byte) (answer : Except FaultReason State) :
    answersNext (commitAlu h s npc answer) := by
  cases answer
  · exact raise_answers _ _ _
  · exact ⟨_, rfl⟩

theorem exec_next (i : Instr) (s : State) : answersNext (exec i s) := by
  cases i <;> rw [exec]
  case ldi => exact withReg_answers _ _ fun _ => withNextPc_answers _ fun _ => ⟨_, rfl⟩
  case prn => exact withReg_answers _ _ fun _ => withNextPc_answers _ fun _ => ⟨_, rfl⟩
  case hlt => exact ⟨_, rfl⟩
  case add => exact withRegs_answers _ _ _ fun _ _ => withNextPc_answers _ fun _ => commitAlu_answers _ _ _
  case mul => exact withRegs_answers _ _ _ fun _ _ => withNextPc_answers _ fun _ => commitAlu_answers _ _ _
  case push =>
    exact withReg_answers _ _ fun _ => withStackRoom_answers _ _ (withNextPc_answers _ fun _ => ⟨_, rfl⟩)
  case pop =>
    exact withReg_answers _ _ fun _ => withStackRoom_answers _ _ (withNextPc_answers _ fun _ => ⟨_, rfl⟩)
  case call =>
    exact withReg_answers _ _ fun _ => withStackRoom_answers _ _ (withNextPc_answers _ fun _ => ⟨_, rfl⟩)
  case ret => exact withStackRoom_answers _ _ ⟨_, rfl⟩
  case cmp => exact withRegs_answers _ _ _ fun _ _ => withNextPc_answers _ fun _ => commitAlu_answers _ _ _
  case jmp => exact withReg_answers _ _ fun _ => ⟨_, rfl⟩
  case jeq =>
    refine withReg_answers _ _ fun _ => ?_
    cases s.flagE
    · exact withNextPc_answers _ fun _ => ⟨_, rfl⟩
    · exact ⟨_, rfl⟩
  case jne =>
    refine withReg_answers _ _ fun _ => ?_
    cases s.flagE
    · exact ⟨_, rfl⟩
    · exact withNextPc_answers _ fun _ => ⟨_, rfl⟩

end Sys2Proof.Machine
end

