-- ==== Sys2Proof/Laws/Run.lean ====
section
/-! SUPPORT. The run loop and the host's own runner, one step at a time. -/

namespace Sys2Proof.Machine

variable {s t : State}

theorem coreRun_zero (s : State) : Sys2Proof.core.run 0 s = .next s := rfl

/-- The host's runner takes one step and goes on. -/
theorem coreRun_succ (k : Nat) (h : step s = .next t) : Sys2Proof.core.run (k + 1) s = Sys2Proof.core.run k t := by
  have hc : Sys2Proof.core.step s = .next t := h
  simp only [Host.Core.run, hc]

theorem runLoop_terminal (fuel : Nat) (h : s.run ≠ .running) : runLoop fuel s = some s := by
  cases fuel <;> rw [runLoop, if_neg h]

theorem runLoop_zero_running (h : s.run = .running) : runLoop 0 s = none := by rw [runLoop, if_pos h]

theorem runLoop_succ (fuel : Nat) (h : step s = .next t) : runLoop (fuel + 1) s = runLoop fuel t := by
  rw [runLoop, if_pos (step_cases h).1, h]

end Sys2Proof.Machine
end

