-- ==== Sys2Proof/Tests/Slice0.lean ====
section
/-! SUPPORT. Tests of the model: words written out from the spec's encodings, single steps taken from the vectors of
spec/95_test_vectors.md (L1, A2, S3, C8, ...), and for every obligation with hypotheses a concrete state that meets them. -/

namespace Sys2Proof.Tests

open Sys2Proof.Machine

/-- The reset state with `bytes` at `pc`, and the PC there. -/
def placed (pc : Nat) (bytes : List Byte) : State :=
  { State.reset with mem := Memory.writeBytes State.reset.mem pc bytes, pc := BitVec.ofNat 8 pc }

/-- Register number `n`, 0 to 7. -/
def x (n : Fin 8) : RegIndex := n

/-- `s` with register `n` (0 to 7) holding `v`. -/
def setX (s : State) (n : Fin 8) (v : Byte) : State := s.setReg n v

/-- `s` with one byte of memory set. -/
def poke (s : State) (addr v : Byte) : State := s.memWrite addr v

/-- `s` with `FL` holding `v`. -/
def withFl (s : State) (v : Byte) : State := { s with fl := v }

/-- The outcome is a next state that passes `p`. -/
def answers (o : Result) (p : State → Bool) : Bool :=
  match o with
  | .next t => p t
  | .fault _ => false
  | .refused _ => false

/-- The outcome is the fault `reason` with the record (reason, pc, ir), and nothing else changed. -/
def faults (s : State) (reason : FaultReason) (ir : Byte) : Bool :=
  answers (step s) fun t => t == { s with run := .faulted reason, record := some ⟨reason, s.pc, some ir⟩ }

/-! ### Decoding: one word for each row, bit by bit from the "Encoding:" lines of the instruction rules -/

theorem test_decode_ldi : decode [0b10000010#8, 0b00000011#8, 0b11000101#8] = .ok (.ldi 3#8 197#8) := by decide
theorem test_decode_prn : decode [0b01000111#8, 0b00000110#8] = .ok (.prn 6#8) := by decide
theorem test_decode_hlt : decode [0b00000001#8] = .ok .hlt := by decide
theorem test_decode_add : decode [0b10100000#8, 0b00000001#8, 0b00000010#8] = .ok (.add 1#8 2#8) := by decide
theorem test_decode_mul : decode [0b10100010#8, 0b00000111#8, 0b00000000#8] = .ok (.mul 7#8 0#8) := by decide
theorem test_decode_push : decode [0b01000101#8, 0b00000101#8] = .ok (.push 5#8) := by decide
theorem test_decode_pop : decode [0b01000110#8, 0b00000100#8] = .ok (.pop 4#8) := by decide
theorem test_decode_call : decode [0b01010000#8, 0b00000011#8] = .ok (.call 3#8) := by decide
theorem test_decode_ret : decode [0b00010001#8] = .ok .ret := by decide
theorem test_decode_cmp : decode [0b10100111#8, 0b00000100#8, 0b00000110#8] = .ok (.cmp 4#8 6#8) := by decide
theorem test_decode_jmp : decode [0b01010100#8, 0b00000010#8] = .ok (.jmp 2#8) := by decide
theorem test_decode_jeq : decode [0b01010101#8, 0b00000001#8] = .ok (.jeq 1#8) := by decide
theorem test_decode_jne : decode [0b01010110#8, 0b00000111#8] = .ok (.jne 7#8) := by decide

/-- There is no SUB opcode (vector A17), an opcode one bit off is none (F3), nor is 0 (F1), nor `0xFF` (F2). -/
theorem test_decode_unknown :
    decode [0xA1#8, 0#8, 1#8] = .error (.unknownOpcode 0xA1#8) ∧ decode [0x83#8] = .error (.unknownOpcode 0x83#8) ∧
    decode [0#8] = .error (.unknownOpcode 0#8) ∧ decode [0xFF#8] = .error (.unknownOpcode 0xFF#8) := by decide

theorem test_decode_missing_operand :
    decode [0x82#8, 9#8] = .error (.missingOperand 0x82#8) ∧ decode [0x54#8] = .error (.missingOperand 0x54#8) ∧
    decode [] = .error .noOpcodeByte := by decide

/-- R93: a register operand byte above 7 selects the same instruction. -/
theorem test_decode_operand_above_7 : decode [0x55#8, 0x88#8] = .ok (.jeq 0x88#8) := by decide

/-- The cross-check of R87: `1 + AA` is the width, bit 5 marks the three ALU instructions and bit 4 the five control
transfers. -/
theorem test_opcode_fields (h : Handler) :
    1 + (h.opcode.extractLsb' 6 2).toNat = h.width ∧
    (h.opcode.getLsbD 5 = true ↔ h = .add ∨ h = .mul ∨ h = .cmp) ∧
    (h.opcode.getLsbD 4 = true ↔ h = .call ∨ h = .ret ∨ h = .jmp ∨ h = .jeq ∨ h = .jne) := by
  cases h <;> decide

/-- A word of the opcode table numbers its bits from the first byte, and the bytes after `nbits` are 0. -/
theorem test_decodeTableWord :
    decodeTableWord 24 0x050382 = some (.ldi 3#8 5#8) ∧ decodeTableWord 8 0x82 = some (.ldi 0#8 0#8) ∧
    decodeTableWord 8 0x01 = some .hlt ∧ decodeTableWord 8 0x00 = none := by decide

/-- The step runs the word `withFetchWord` placed. -/
theorem test_withFetchWord :
    answers (step (State.reset.withFetchWord 24 0x050382)) (fun t => t.reg (x 3) == 5#8 && t.pc == 3#8) = true := by decide

/-! ### WellFormed: an ill-formed term for each check -/

theorem test_wellFormed_ldi : (Instr.ldi 8#8 0#8).wellFormed = false ∧ (Instr.ldi 7#8 255#8).wellFormed = true := by decide
theorem test_wellFormed_prn : (Instr.prn 8#8).wellFormed = false := by decide
theorem test_wellFormed_add : (Instr.add 8#8 0#8).wellFormed = false ∧ (Instr.add 0#8 8#8).wellFormed = false := by decide
theorem test_wellFormed_mul : (Instr.mul 255#8 0#8).wellFormed = false ∧ (Instr.mul 0#8 255#8).wellFormed = false := by decide
theorem test_wellFormed_push : (Instr.push 9#8).wellFormed = false := by decide
theorem test_wellFormed_pop : (Instr.pop 0x87#8).wellFormed = false := by decide
theorem test_wellFormed_call : (Instr.call 16#8).wellFormed = false := by decide
theorem test_wellFormed_cmp : (Instr.cmp 8#8 0#8).wellFormed = false ∧ (Instr.cmp 0#8 8#8).wellFormed = false := by decide
theorem test_wellFormed_jmp : (Instr.jmp 8#8).wellFormed = false := by decide
theorem test_wellFormed_jeq : (Instr.jeq 128#8).wellFormed = false := by decide
theorem test_wellFormed_jne : (Instr.jne 8#8).wellFormed = false := by decide

/-! ### Single steps, from part 2 of spec/95_test_vectors.md -/

/-- L3: the immediate goes to the register, register 7 included. -/
theorem test_step_ldi : answers (step (placed 0 [0x82#8, 7#8, 0x10#8])) (fun t => t.reg (x 7) == 16#8 && t.pc == 3#8) = true := by
  decide
/-- L7: the operand address is checked before the register index. -/
theorem test_step_ldi_fault : faults (placed 254 [0x82#8, 9#8]) .pcOutOfRange 0x82#8 = true := by decide
/-- L8. -/
theorem test_step_prn :
    answers (step (setX (placed 9 [0x47#8, 0#8]) 0 72#8)) (fun t => t.out == [72#8] && t.pc == 11#8) = true := by decide
/-- L10: at 254 the operand is there and the next PC is not. -/
theorem test_step_prn_fault : faults (placed 254 [0x47#8, 0#8]) .pcOutOfRange 0x47#8 = true := by decide
/-- L12. -/
theorem test_step_hlt : answers (step (placed 255 [0x01#8])) (fun t => t.run == .halted && t.pc == 255#8) = true := by decide
/-- A2: 300 mod 256. -/
theorem test_step_add :
    answers (step (setX (setX (placed 0 [0xA0#8, 0#8, 1#8]) 0 200#8) 1 100#8))
      (fun t => t.reg (x 0) == 44#8 && t.reg (x 1) == 100#8) = true := by decide
/-- A5: the stack pointer moves by ADD, with no range check. -/
theorem test_step_add_sp :
    answers (step (setX (placed 0 [0xA0#8, 7#8, 1#8]) 1 20#8)) (fun t => t.reg (x 7) == 7#8 && t.pc == 3#8) = true := by decide
/-- A8: 65025 mod 256. -/
theorem test_step_mul :
    answers (step (setX (setX (placed 0 [0xA2#8, 0#8, 1#8]) 0 255#8) 1 255#8)) (fun t => t.reg (x 0) == 1#8) = true := by decide
/-- A7: the source is the destination. -/
theorem test_step_mul_square :
    answers (step (setX (placed 0 [0xA2#8, 3#8, 3#8]) 3 16#8)) (fun t => t.reg (x 3) == 0#8) = true := by decide
/-- A13: the comparison is unsigned. -/
theorem test_step_cmp :
    answers (step (setX (setX (placed 0 [0xA7#8, 0#8, 1#8]) 0 200#8) 1 100#8)) (fun t => t.fl == 2#8 && t.pc == 3#8) = true := by
  decide
/-- A10: the flags before the CMP are replaced. -/
theorem test_step_cmp_replaces :
    answers (step (withFl (setX (setX (placed 0 [0xA7#8, 0#8, 1#8]) 0 5#8) 1 5#8) 4#8)) (fun t => t.fl == 1#8) = true := by decide
/-- S3: PUSH R7 stores the decremented pointer. -/
theorem test_step_push_sp :
    answers (step (placed 0 [0x45#8, 7#8])) (fun t => t.reg (x 7) == 242#8 && t.memRead 242#8 == 0xF2#8) = true := by decide
/-- S11: the register operand is checked before the stack. -/
theorem test_step_push_fault : faults (setX (placed 10 [0x45#8, 9#8]) 7 0#8) .invalidRegister 0x45#8 = true := by decide
/-- S2: the popped cell keeps its value. -/
theorem test_step_pop :
    answers (step (poke (setX (placed 10 [0x46#8, 2#8]) 7 242#8) 242#8 5#8))
      (fun t => t.reg (x 2) == 5#8 && t.reg (x 7) == 243#8 && t.memRead 242#8 == 5#8 && t.pc == 12#8) = true := by decide
/-- S9: POP R7 faults on the loaded value. -/
theorem test_step_pop_sp_fault :
    faults (poke (setX (placed 10 [0x46#8, 7#8]) 7 200#8) 200#8 0xFF#8) .stackFault 0x46#8 = true := by decide
/-- C8: the return address is 102, stored over the CALL's own operand byte, and the call goes to 50. -/
theorem test_step_call :
    answers (step (setX (setX (placed 100 [0x50#8, 1#8]) 1 50#8) 7 102#8))
      (fun t => t.reg (x 7) == 101#8 && t.memRead 101#8 == 102#8 && t.pc == 50#8) = true := by decide
/-- C5: the stack is checked before the return address. -/
theorem test_step_call_fault : faults (setX (placed 254 [0x50#8, 0#8]) 7 0#8) .stackFault 0x50#8 = true := by decide
/-- C6: RET at the last address. -/
theorem test_step_ret :
    answers (step (poke (setX (placed 255 [0x11#8]) 7 100#8) 100#8 7#8)) (fun t => t.pc == 7#8 && t.reg (x 7) == 101#8) = true := by
  decide
/-- C7. -/
theorem test_step_ret_fault : faults (setX (placed 3 [0x11#8]) 7 255#8) .stackFault 0x11#8 = true := by decide
/-- C10: JMP at 254 has no next PC to check. -/
theorem test_step_jmp : answers (step (setX (placed 254 [0x54#8, 0#8]) 0 9#8)) (fun t => t.pc == 9#8) = true := by decide
/-- C11. -/
theorem test_step_jmp_fault : faults (placed 255 [0x54#8]) .pcOutOfRange 0x54#8 = true := by decide
/-- C12. -/
theorem test_step_jeq :
    answers (step (withFl (setX (placed 0 [0x55#8, 2#8]) 2 77#8) 1#8)) (fun t => t.pc == 77#8) = true := by decide
/-- C14: GREATER is not EQUAL. -/
theorem test_step_jeq_greater :
    answers (step (withFl (setX (placed 0 [0x55#8, 2#8]) 2 77#8) 2#8)) (fun t => t.pc == 2#8) = true := by decide
/-- C17. -/
theorem test_step_jne :
    answers (step (withFl (setX (placed 0 [0x56#8, 2#8]) 2 77#8) 1#8)) (fun t => t.pc == 2#8) = true := by decide
/-- C16: no CMP yet, so JNE is taken. -/
theorem test_step_jne_reset :
    answers (step (setX (placed 0 [0x56#8, 2#8]) 2 77#8)) (fun t => t.pc == 77#8) = true := by decide
/-- F3. -/
theorem test_step_unknown : faults (placed 0 [0x83#8]) .unknownOpcode 0x83#8 = true := by decide
/-- F4, F5: no step exists in a terminal state. -/
theorem test_no_step :
    step { State.reset with run := .halted } = .fault .noStepHalted ∧
    step { State.reset with run := .faulted .unknownOpcode } = .fault (.noStepFaulted .unknownOpcode) := ⟨rfl, rfl⟩

/-- The ALU's SUB, which no instruction issues: `5 - 10 = 251` and `7 - 7 = 0` (95_test_vectors.md, after A18). -/
theorem test_alu_sub :
    (alu .sub (x 0) (x 1) (setX (setX State.reset 0 5#8) 1 10#8)).map (fun t => t.reg (x 0)) = .ok 251#8 ∧
    (alu .sub (x 0) (x 1) (setX (setX State.reset 0 7#8) 1 7#8)).map (fun t => t.reg (x 0)) = .ok 0#8 := ⟨rfl, rfl⟩

/-! ### The Loader (80_host_interface.md R261 to R263) -/

/-- The first lines of the source's program file, with a comment, a line of white space and a line of comment alone. -/
theorem test_load_text :
    loadImage (some "10000010 # LDI R0,8\n  \n00000000\n# none\n 1000 \n".toList) = .ok [0x82#8, 0#8, 8#8] := by rfl

/-- Nine digits, a sign, an underscore, a base mark and a digit 2 are no literal; a leading zero is. -/
theorem test_parseLine :
    parseLine "100000000".toList = .malformed ∧ parseLine "+1".toList = .malformed ∧ parseLine "1_0".toList = .malformed ∧
    parseLine "0b1".toList = .malformed ∧ parseLine "12".toList = .malformed ∧
    parseLine "000000011".toList = .literal 3#8 := by decide

/-- A value prints as its unsigned decimal numeral (R266). -/
theorem test_renderedOut : ({ State.reset with out := [72#8, 255#8, 0#8] }).renderedOut = ["72".toList, "255".toList, "0".toList] := by
  rfl

/-! ### Witnesses: for every statement with hypotheses, states and operands that meet them, at the ends of their ranges -/

/-- The hypotheses of a fetch: run state `Running`, the opcode `op` at the PC, the PC at `pc`. -/
def fetches (s : State) (op : Byte) (pc : Nat) : Bool := s.run == .running && s.memRead s.pc == op && s.pc.toNat == pc

/-- The hypotheses of `fetchesWidth3` at the last PC that has two operand bytes and the first that has not, with those of the
register operands (8 and 7) and of the next PC (252 and 253). -/
def width3Met (op : Byte) : Bool :=
  fetches (placed 253 [op, 7#8, 1#8]) op 253 && fetches (placed 254 [op, 7#8]) op 254 &&
  decide (7 < (8#8 : Byte).toNat) && (7#8 : Byte).toNat == spIndex.val && (0#8 : Byte).toNat == (x 0).val &&
  decide ((placed 252 []).pc.toNat + 3 < 256) && decide (256 ≤ (placed 253 []).pc.toNat + 3)

/-- The same for width 2. -/
def width2Met (op : Byte) : Bool :=
  fetches (placed 254 [op, 7#8]) op 254 && fetches (placed 255 [op]) op 255 &&
  decide (7 < (8#8 : Byte).toNat) && (7#8 : Byte).toNat == spIndex.val && (0#8 : Byte).toNat == (x 0).val &&
  decide ((placed 253 []).pc.toNat + 2 < 256) && decide (256 ≤ (placed 254 []).pc.toNat + 2)

theorem witness_StepRunsDecodedInstruction :
    (placed 253 [0x82#8, 0#8, 5#8]).run = .running ∧
    decode ((placed 253 [0x82#8, 0#8, 5#8]).mem.bytesFrom 3 (placed 253 [0x82#8, 0#8, 5#8]).pc.toNat) = .ok (.ldi 0#8 5#8) := by decide

theorem witness_UnknownOpcodeExactly :
    (placed 3 [0x83#8]).run = .running ∧ (∀ h : Handler, h.opcode ≠ (placed 3 [0x83#8]).memRead (placed 3 [0x83#8]).pc) ∧
    ∃ t, step (placed 3 [0x83#8]) = .next t ∧ t.run = .faulted .unknownOpcode :=
  ⟨rfl, fun h => by cases h <;> decide, _, rfl, rfl⟩

theorem witness_OperandFetch :
    fetches (placed 253 [0xA7#8, 0#8, 1#8]) Handler.cmp.opcode 253 = true ∧ 253 + Handler.cmp.width ≤ 256 ∧
    fetches (placed 254 [0xA7#8, 0#8]) Handler.cmp.opcode 254 = true ∧ 256 < 254 + Handler.cmp.width ∧
    fetches (placed 255 [0x11#8]) Handler.ret.opcode 255 = true ∧ 255 + Handler.ret.width ≤ 256 := by decide

theorem witness_LdiLoadsImmediate : width3Met 0b10000010#8 = true := by decide
theorem witness_PrnEmitsRegister : width2Met 0b01000111#8 = true := by decide
theorem witness_HltHalts : fetches (placed 255 [0x01#8]) 0b00000001#8 255 = true := by decide
theorem witness_AddWrapsModulo256 : width3Met 0b10100000#8 = true := by decide
theorem witness_MulKeepsLowByte : width3Met 0b10100010#8 = true := by decide
theorem witness_CmpSetsExactlyOneFlag : width3Met 0b10100111#8 = true := by decide
theorem witness_JmpReplacesPc : width2Met 0b01010100#8 = true := by decide

/-- Stack pointer 0, then 1 with PC 254, then 1 with PC 253 and memory in canonical form. -/
theorem witness_PushStoresBelowTop :
    width2Met 0b01000101#8 = true ∧ (setX (placed 253 []) 7 0#8).sp = 0#8 ∧
    ((setX (placed 254 []) 7 1#8).sp ≠ 0#8 ∧ 256 ≤ (setX (placed 254 []) 7 1#8).pc.toNat + 2) ∧
    ((setX (placed 253 [0x45#8, 7#8]) 7 1#8).sp ≠ 0#8 ∧ (setX (placed 253 [0x45#8, 7#8]) 7 1#8).pc.toNat + 2 < 256 ∧
      (setX (placed 253 [0x45#8, 7#8]) 7 1#8).mem.wf) := by decide

/-- The value to be incremented is 255 (a loaded byte for register 7), or 254 with PC 254 or 253. -/
theorem witness_PopLoadsTop :
    width2Met 0b01000110#8 = true ∧ (setX (placed 253 []) 7 255#8).sp = 255#8 ∧
    (poke (setX (placed 253 []) 7 200#8) 200#8 255#8).memRead (poke (setX (placed 253 []) 7 200#8) 200#8 255#8).sp = 255#8 ∧
    ((setX (placed 254 []) 7 254#8).sp ≠ 255#8 ∧ 256 ≤ (setX (placed 254 []) 7 254#8).pc.toNat + 2) ∧
    ((setX (placed 253 []) 7 254#8).sp ≠ 255#8 ∧ (setX (placed 253 []) 7 254#8).pc.toNat + 2 < 256) ∧
    ((setX (placed 253 []) 7 255#8).memRead (setX (placed 253 []) 7 255#8).sp ≠ 255#8 ∧
      (setX (placed 253 []) 7 255#8).pc.toNat + 2 < 256) := by decide

theorem witness_CallPushesReturnAddress :
    width2Met 0b01010000#8 = true ∧ (setX (placed 254 []) 7 0#8).sp = 0#8 ∧
    ((setX (placed 254 []) 7 1#8).sp ≠ 0#8 ∧ 256 ≤ (setX (placed 254 []) 7 1#8).pc.toNat + 2) ∧
    ((setX (placed 253 [0x50#8, 7#8]) 7 1#8).sp ≠ 0#8 ∧ (setX (placed 253 [0x50#8, 7#8]) 7 1#8).pc.toNat + 2 < 256 ∧
      (setX (placed 253 [0x50#8, 7#8]) 7 1#8).mem.wf) := by decide

theorem witness_RetPopsPc :
    fetches (placed 255 [0x11#8]) 0b00010001#8 255 = true ∧ (setX (placed 3 []) 7 255#8).sp = 255#8 ∧
    (setX (placed 255 []) 7 254#8).sp ≠ 255#8 := by decide

/-- EQUAL set; clear with PC 253; clear with PC 254. -/
theorem witness_JeqJumpsIfEqualSet :
    width2Met 0b01010101#8 = true ∧ (withFl (placed 254 []) 1#8).fl.getLsbD 0 = true ∧
    (withFl (placed 253 []) 4#8).fl.getLsbD 0 = false ∧ (withFl (placed 254 []) 0#8).fl.getLsbD 0 = false := by decide

theorem witness_JneJumpsIfEqualClear :
    width2Met 0b01010110#8 = true ∧ (withFl (placed 254 []) 2#8).fl.getLsbD 0 = false ∧
    (withFl (placed 253 []) 1#8).fl.getLsbD 0 = true ∧ (withFl (placed 254 []) 1#8).fl.getLsbD 0 = true := by decide

/-- A state that holds bytes, flags and a moved stack, about to take a CALL. -/
def busy : State := withFl (setX (setX (placed 100 [0x50#8, 1#8]) 1 50#8) 7 102#8) 4#8

theorem busy_inv : busy.Inv := ⟨by decide, .inr (.inr (.inr rfl)), rfl⟩

theorem witness_StepKeepsInvariant : busy.Inv ∧ ∃ t, step busy = .next t := ⟨busy_inv, _, rfl⟩

theorem witness_FaultsArePrecise :
    ∃ t, step (setX (placed 3 [0x45#8, 0#8]) 7 0#8) = .next t ∧ t.run = .faulted .stackFault := ⟨_, rfl, rfl⟩

/-- Every fault of a step has a state, and so has none. -/
theorem witness_FaultPriority :
    busy.run = .running ∧ firstFault busy = none ∧
    firstFault (placed 3 [0x83#8]) = some .unknownOpcode ∧
    firstFault (placed 254 [0x82#8, 9#8]) = some .pcOutOfRange ∧
    firstFault (setX (placed 254 [0x50#8, 9#8]) 7 0#8) = some .invalidRegister ∧
    firstFault (setX (placed 254 [0x50#8, 0#8]) 7 0#8) = some .stackFault ∧
    firstFault (placed 254 [0x50#8, 0#8]) = some .pcOutOfRange := by decide

theorem witness_UnsupportedOperationUnreachable : ∃ t, step busy = .next t ∧ t.run = .running := ⟨_, rfl, rfl⟩

theorem witness_StepRaisesNoLoaderFault :
    ∃ t, step (placed 3 [0x83#8]) = .next t ∧ t.run = .faulted .unknownOpcode := ⟨_, rfl, rfl⟩

theorem witness_OnlyHltNeverFaults :
    ∃ t, fetches (placed 255 [0x01#8]) Handler.hlt.opcode 255 = true ∧ step (placed 255 [0x01#8]) = .next t ∧ t.run = .halted :=
  ⟨_, by decide, rfl, rfl⟩

theorem witness_OnlyCmpWritesFlags :
    (∀ a b, Instr.jeq 0#8 ≠ .cmp a b) ∧ ∃ t, exec (.jeq 0#8) busy = .next t ∧ t.fl = 4#8 := ⟨nofun, _, rfl, rfl⟩

/-- A JEQ and a replacement FL with the same bit 0; a CMP that completes; a CMP that faults. -/
theorem witness_FlagsReadByConditionalJumpsAlone :
    busy.run = .running ∧ (6#8 : Byte).getLsbD 0 = busy.fl.getLsbD 0 ∧
    (∃ t, exec (.jeq 0#8) busy = .next t) ∧
    (∃ t, exec (.cmp 0#8 1#8) busy = .next t ∧ t.run = .running) ∧
    (∃ t, exec (.cmp 0#8 8#8) busy = .next t ∧ t.run ≠ .running) := ⟨rfl, rfl, ⟨_, rfl⟩, ⟨_, rfl, rfl⟩, ⟨_, rfl, nofun⟩⟩

/-- Two register files that differ everywhere but in the registers a PUSH R1 reads. -/
theorem witness_RegistersReadAndWritten :
    busy.run = .running ∧
    (∀ j : RegIndex, j.val ∈ registersRead busy (.push 1#8) →
      (#v[9#8, 50#8, 9#8, 9#8, 9#8, 9#8, 9#8, 102#8] : Vector Byte Config.nregs)[j] = busy.reg j) ∧
    (∃ t, exec (.push 1#8) busy = .next t ∧ t.run = .running) ∧ (x 0).val ∉ registersWritten (.push 1#8) :=
  ⟨rfl, by decide, ⟨_, rfl, rfl⟩, by decide⟩

theorem witness_MemoryAndOutputFrame :
    (∃ t, exec (.push 1#8) busy = .next t) ∧ (∃ t, exec (.prn 1#8) busy = .next t) ∧
    (∀ r, Instr.prn 1#8 ≠ .push r ∧ Instr.prn 1#8 ≠ .call r) ∧ (∀ r, Instr.push 1#8 ≠ .prn r) ∧
    102 ≠ busy.pushAddr.toNat := ⟨⟨_, rfl⟩, ⟨_, rfl⟩, fun _ => ⟨nofun, nofun⟩, nofun, by decide⟩

theorem witness_MemWriteSetsOneCell : busy.mem.wf ∧ busy.mem ≠ [] := by decide

theorem witness_CanonicalMemoriesReadAlikeAreEqual :
    ∃ m n : Memory, m.wf ∧ n.wf ∧ (∀ addr, addr < 256 → m.readByte addr = n.readByte addr) ∧ m ≠ [] :=
  ⟨busy.mem, busy.mem, by decide, by decide, fun _ _ => rfl, by decide⟩

theorem witness_AluOperations : flLegal (0#8 : Byte) ∧ flLegal (1#8 : Byte) ∧ flLegal (2#8 : Byte) ∧ flLegal busy.fl :=
  ⟨.inl rfl, .inr (.inl rfl), .inr (.inr (.inl rfl)), .inr (.inr (.inr rfl))⟩

/-- PUSH R0 then POP R2, and PUSH R7 then POP R7. -/
theorem witness_PushThenPop :
    busy.mem.wf ∧ busy.run = .running ∧
    (∃ t u, exec (.push 0#8) busy = .next t ∧ t.run = .running ∧ exec (.pop 2#8) t = .next u ∧ u.run = .running) ∧
    (∃ t u, exec (.push 7#8) busy = .next t ∧ t.run = .running ∧ exec (.pop 7#8) t = .next u ∧ u.run = .running) :=
  ⟨by decide, rfl, ⟨_, _, rfl, rfl, rfl, rfl⟩, ⟨_, _, rfl, rfl, rfl, rfl⟩⟩

/-- The state just after the CALL, and one with other registers, elsewhere. -/
theorem witness_CallThenRet :
    busy.mem.wf ∧ busy.run = .running ∧ ∃ t, exec (.call 1#8) busy = .next t ∧ t.run = .running ∧
      ∃ u : State, u ≠ t ∧ u.sp = t.sp ∧ u.memRead u.sp = t.memRead t.sp :=
  ⟨by decide, rfl, _, rfl, rfl, { poke (setX (placed 9 []) 7 101#8) 101#8 102#8 with out := [1#8] }, by decide, rfl, rfl⟩

theorem witness_LdiThenPrnEmitsImmediate :
    busy.run = .running ∧
    ∃ t u, exec (.ldi 3#8 255#8) busy = .next t ∧ t.run = .running ∧ exec (.prn 3#8) t = .next u ∧ u.run = .running :=
  ⟨rfl, _, _, rfl, rfl, rfl, rfl⟩

theorem witness_LdiOfRegister7MovesStack :
    (placed 250 [0x82#8, 7#8, 1#8, 0x45#8, 6#8]).mem.wf ∧ (1#8 : Byte) ≠ 0#8 ∧ (x 6) ≠ spIndex ∧
    (placed 250 [0x82#8, 7#8, 1#8, 0x45#8, 6#8]).pc.toNat + 5 < 256 := by decide

/-- Program P7 before its PUSH. -/
def p7 : State := setX (setX (placed 6 [0x45#8, 0#8, 0x47#8, 0#8, 1#8]) 0 1#8) 7 9#8

theorem witness_PushedByteIsFetched :
    p7.mem.wf ∧ (x 0) ≠ spIndex ∧ p7.run = .running ∧ p7.reg (x 0) = 0b00000001#8 ∧
    ∃ t, exec (.push 0#8) p7 = .next t ∧ t.run = .running ∧ t.pc = p7.pushAddr :=
  ⟨by decide, by decide, rfl, rfl, _, rfl, rfl, rfl⟩

theorem witness_ResetState : (x 0) ≠ spIndex ∧ (x 6) ≠ spIndex := by decide

theorem witness_LaunchState : (List.replicate 256 (1#8 : Byte)).length ≤ 256 ∧ 255 < 256 :=
  ⟨by rw [List.length_replicate], by decide⟩

theorem witness_ProgramTextBootsImage : (List.replicate 256 (1#8 : Byte)).length ≤ 256 := by rw [List.length_replicate]

/-- Contents at the ends of R263: none, one digit, nine digits of value 255, nine of value 256, a blank between digits, a bad
character before a comment. -/
theorem witness_LineParsing :
    lineContent " #x".toList [] ∧
    (lineContent "1".toList ['1'] ∧ spellsBinary ['1'] (1#8 : Byte).toNat) ∧
    (lineContent "011111111\t# y".toList "011111111".toList ∧ spellsBinary "011111111".toList (255#8 : Byte).toNat) ∧
    (lineContent "100000000".toList "100000000".toList ∧ ∀ v : Byte, ¬ spellsBinary "100000000".toList v.toNat) ∧
    (lineContent " 1 0".toList "1 0".toList ∧ ∀ v : Byte, ¬ spellsBinary "1 0".toList v.toNat) ∧
    (lineContent "2#1".toList "2".toList ∧ ∀ v : Byte, ¬ spellsBinary "2".toList v.toNat) :=
  ⟨⟨[' '], [], "#x".toList, by simp [isBlankChar]⟩,
    ⟨⟨[], [], [], by simp [isBlankChar]⟩, by simp, by simp, by decide⟩,
    ⟨⟨[], ['\t'], "# y".toList, by simp [isBlankChar]⟩, by simp, by simp, by decide⟩,
    ⟨⟨[], [], [], by simp [isBlankChar]⟩, fun v h => absurd (isLiteral_iff.2 ⟨v, h⟩) (by decide)⟩,
    ⟨⟨[' '], [], [], by simp [isBlankChar]⟩, fun v h => absurd (isLiteral_iff.2 ⟨v, h⟩) (by decide)⟩,
    ⟨⟨[], [], "#1".toList, by simp [isBlankChar]⟩, fun v h => absurd (isLiteral_iff.2 ⟨v, h⟩) (by decide)⟩⟩

/-- `n` lines that are the literal 1. -/
def ones (n : Nat) : List (List Char) := List.replicate n ['1']

theorem ones_kinds (n : Nat) : (ones n).map parseLine = List.replicate n (.literal 1#8) := by
  rw [ones, List.map_replicate, show parseLine ['1'] = .literal 1#8 by decide]

theorem literalBytes_ones (n : Nat) {k : LineKind} (hk : literalBytes [k] = []) :
    literalBytes (List.replicate n (.literal 1#8) ++ [k]) = List.replicate n 1#8 := by
  induction n with
  | zero => exact hk
  | succ n ih => rw [List.replicate_succ, List.cons_append, literalBytes, ih, List.replicate_succ]

theorem areLines_ones (n : Nat) {last : List Char} (h : lineEnd ∉ last) : areLines (ones n ++ [last]) := by
  refine ⟨by simp, fun line hm => ?_⟩
  rcases List.mem_append.1 hm with hm | hm
  · rw [List.eq_of_mem_replicate hm]
    decide
  · rwa [List.mem_singleton.1 hm]

/-- 256 literals load, which is the most that do. -/
theorem witness_LoaderReadsEveryLine :
    areLines (ones 256 ++ [[]]) ∧ LineKind.malformed ∉ (ones 256 ++ [[]]).map parseLine ∧
    literalBytes ((ones 256 ++ [[]]).map parseLine) = List.replicate 256 1#8 ∧
    (List.replicate 256 (1#8 : Byte)).length ≤ 256 :=
  ⟨areLines_ones 256 (by decide), by
    rw [List.map_append, ones_kinds, show [[]].map parseLine = [.blank] by decide, List.mem_append, List.mem_replicate]
    simp, by
    rw [List.map_append, ones_kinds, show [[]].map parseLine = [.blank] by decide, literalBytes_ones 256 rfl], by rw [List.length_replicate]⟩

/-- A malformed line after 256 literals, 257 literals, and both; the three are three different clauses. -/
theorem witness_LoaderFaults :
    loadImage none = .error .programNotFound ∧
    (areLines (ones 256 ++ [['2']]) ∧ LineKind.malformed ∈ (ones 256 ++ [['2']]).map parseLine ∧
      (literalBytes ((ones 256 ++ [['2']]).map parseLine)).length ≤ 256) ∧
    (areLines (ones 257 ++ [[]]) ∧ LineKind.malformed ∉ (ones 257 ++ [[]]).map parseLine ∧
      256 < (literalBytes ((ones 257 ++ [[]]).map parseLine)).length) ∧
    (areLines (ones 257 ++ [['2']]) ∧ LineKind.malformed ∈ (ones 257 ++ [['2']]).map parseLine ∧
      256 < (literalBytes ((ones 257 ++ [['2']]).map parseLine)).length) := by
  have hbad : [['2']].map parseLine = [LineKind.malformed] := by decide
  have hblank : [[]].map parseLine = [LineKind.blank] := by decide
  refine ⟨rfl, ⟨areLines_ones 256 (by decide), ?_, ?_⟩, ⟨areLines_ones 257 (by decide), ?_, ?_⟩,
    areLines_ones 257 (by decide), ?_, ?_⟩ <;> rw [List.map_append, ones_kinds]
  · rw [hbad, List.mem_append]
    exact .inr (List.mem_singleton.2 rfl)
  · rw [hbad, literalBytes_ones 256 rfl, List.length_replicate]
  · rw [hblank, List.mem_append, List.mem_replicate]
    simp
  · rw [hblank, literalBytes_ones 257 rfl, List.length_replicate]
    decide
  · rw [hbad, List.mem_append]
    exact .inr (List.mem_singleton.2 rfl)
  · rw [hbad, literalBytes_ones 257 rfl, List.length_replicate]
    decide

theorem witness_ExitStatusZeroExactlyOnHalt :
    ({ State.reset with run := .faulted .stackFault } : State).run = .faulted .stackFault := rfl

/-- One step of fuel ends a run that begins at a HLT. -/
theorem witness_RunEndsAtFirstTerminalState : ∃ t, runLoop 1 (placed 255 [0x01#8]) = some t ∧ t.run ≠ .running :=
  ⟨_, rfl, nofun⟩

/-- JMP R0 at 254 with 254 in R0. -/
theorem witness_SelfJumpNeverEnds :
    fetches (setX (placed 254 [0x54#8, 0#8]) 0 254#8) 0b01010100#8 254 = true ∧
    ((setX (placed 254 [0x54#8, 0#8]) 0 254#8).memRead ((setX (placed 254 [0x54#8, 0#8]) 0 254#8).pc + 1#8)).toNat = (x 0).val ∧
    (setX (placed 254 [0x54#8, 0#8]) 0 254#8).reg (x 0) = (setX (placed 254 [0x54#8, 0#8]) 0 254#8).pc := by decide

end Sys2Proof.Tests
end

/-! ### What the checks of an instruction look at

The faults of `exec` as a noninterference fact, said once: two states that agree on what the checks of an instruction look at
take the same fault. With `Completes` for the instructions that complete, it carries the statements about what is read. -/

namespace Sys2Proof.Machine

section FaultsAlike

variable {h : Handler} {s s' : State}

/-- Every fault `o` is, taken in `s` by the handler `h`, the outcome `o'` is too, taken in `s'`. -/
def faultsAlike (h : Handler) (s s' : State) (o o' : Result) : Prop :=
  ∀ reason, o = raise reason h s → o' = raise reason h s'

theorem faultsAlike_raise (reason : FaultReason) : faultsAlike h s s' (raise reason h s) (raise reason h s') := by
  intro reason' heq
  have : reason' = reason := by simpa using congrArg State.run (raise_eq_next_iff.1 heq)
  rw [this]

/-- An outcome whose run state is not `Faulted` is no fault. -/
theorem faultsAlike_effect {t : State} {o' : Result} (ht : ∀ reason, t.run ≠ .faulted reason) :
    faultsAlike h s s' (.next t) o' := by
  intro reason heq
  exact absurd (congrArg State.run (raise_eq_next_iff.1 heq.symm)) (ht reason)

theorem withReg_faultsAlike (operand : Byte) {k k' : RegIndex → Result} (hk : ∀ r, faultsAlike h s s' (k r) (k' r)) :
    faultsAlike h s s' (withReg h operand s k) (withReg h operand s' k') := by
  rcases operand_cases operand with ⟨r, hr⟩ | hr
  · rw [withReg_of_names hr, withReg_of_names hr]
    exact hk r
  · rw [withReg_of_above hr, withReg_of_above hr]
    exact faultsAlike_raise _

theorem withRegs_faultsAlike (opA opB : Byte) {k k' : RegIndex → RegIndex → Result}
    (hk : ∀ a b, faultsAlike h s s' (k a b) (k' a b)) :
    faultsAlike h s s' (withRegs h opA opB s k) (withRegs h opA opB s' k') :=
  withReg_faultsAlike opA fun a => withReg_faultsAlike opB fun b => hk a b

theorem withStackRoom_faultsAlike {leaves leaves' : Bool} {k k' : Result} (hl : leaves' = leaves)
    (hk : faultsAlike h s s' k k') : faultsAlike h s s' (withStackRoom h leaves s k) (withStackRoom h leaves' s' k') := by
  subst hl
  cases leaves'
  · exact hk
  · exact faultsAlike_raise _

theorem withNextPc_faultsAlike {k k' : Byte → Result} (hpc : s'.pc = s.pc)
    (hk : ∀ npc, faultsAlike h s s' (k npc) (k' npc)) :
    faultsAlike h s s' (withNextPc h s k) (withNextPc h s' k') := by
  rcases Nat.lt_or_ge (s.pc.toNat + h.width) 256 with hlt | hge
  · rw [withNextPc_of_lt hlt, withNextPc_of_lt (hpc ▸ hlt)]
    exact hpc ▸ hk _
  · rw [withNextPc_of_le hge, withNextPc_of_le (hpc ▸ hge)]
    exact faultsAlike_raise _

theorem ite_faultsAlike {b b' : Bool} {o₁ o₁' o₂ o₂' : Result} (hb : b' = b) (h₁ : faultsAlike h s s' o₁ o₁')
    (h₂ : faultsAlike h s s' o₂ o₂') : faultsAlike h s s' (if b then o₁ else o₂) (if b' then o₁' else o₂') := by
  subst hb
  cases b'
  · exact h₂
  · exact h₁

end FaultsAlike

variable {s s' t : State} {i : Instr}

/-- `s'` agrees with `s` on what the checks of `i` look at (R208): the PC and memory, the stack pointer where `i` moves it, and
EQUAL where `i` branches on it. -/
structure SameChecks (i : Instr) (s s' : State) : Prop where
  pc    : s'.pc = s.pc
  mem   : s'.mem = s.mem
  sp    : i.handler ∈ [Handler.push, .pop, .call, .ret] → s'.sp = s.sp
  flagE : i.handler ∈ [Handler.jeq, .jne] → s'.flagE = s.flagE

theorem State.loadTop_congr (hsp : s'.sp = s.sp) (hmem : s'.mem = s.mem) : s'.loadTop = s.loadTop := by
  rw [State.loadTop, State.loadTop, State.memRead, State.memRead, hmem, hsp]

theorem State.popped_congr (hsp : s'.sp = s.sp) (hmem : s'.mem = s.mem) (r : RegIndex) : s'.popped r = s.popped r := by
  rw [State.popped, State.popped, State.loadTop_congr hsp hmem, hsp]

/-- Begun in a running machine, an instruction faults alike in two states its checks do not tell apart. -/
theorem exec_faultsAlike (hs : s.run = .running) (hc : SameChecks i s s') :
    faultsAlike i.handler s s' (exec i s) (exec i s') := by
  have effect {u : State} {o' : Result} (hu : u.run = s.run) : faultsAlike i.handler s s' (.next u) o' :=
    faultsAlike_effect fun _ => hu.trans hs ▸ nofun
  obtain ⟨hpc, hmem, hsp, hE⟩ := hc
  cases i <;> rw [exec, exec]
  case ldi | prn => exact withReg_faultsAlike _ fun _ => withNextPc_faultsAlike hpc fun _ => effect (by rfl)
  case hlt => exact faultsAlike_effect nofun
  case add | mul | cmp => exact withRegs_faultsAlike _ _ fun _ _ => withNextPc_faultsAlike hpc fun _ => effect (by rfl)
  case push | call =>
    have hsp := hsp (by simp [Instr.handler])
    exact withReg_faultsAlike _ fun _ => withStackRoom_faultsAlike (congrArg (· == 0#8) hsp) <|
      withNextPc_faultsAlike hpc fun _ => effect (by rfl)
  case pop =>
    have hpop := State.popped_congr (hsp (by simp [Instr.handler])) hmem
    exact withReg_faultsAlike _ fun r => withStackRoom_faultsAlike (congrArg (· == 255#8) (hpop r)) <|
      withNextPc_faultsAlike hpc fun _ => effect (by rfl)
  case ret =>
    have hsp := hsp (by simp [Instr.handler])
    exact withStackRoom_faultsAlike (congrArg (· == 255#8) hsp) (effect (by rfl))
  case jmp => exact withReg_faultsAlike _ fun _ => effect (by rfl)
  case jeq =>
    exact withReg_faultsAlike _ fun _ => ite_faultsAlike (hE (by simp [Instr.handler])) (effect (by rfl)) <|
      withNextPc_faultsAlike hpc fun _ => effect (by rfl)
  case jne =>
    exact withReg_faultsAlike _ fun _ => ite_faultsAlike (hE (by simp [Instr.handler]))
      (withNextPc_faultsAlike hpc fun _ => effect (by rfl)) (effect (by rfl))

/-- Begun in a running machine, an instruction takes a fault, and the same in every state its checks do not tell apart, or
it completes. -/
theorem exec_cases_alike (hs : s.run = .running) (hc : SameChecks i s s') (hx : exec i s = .next t) :
    (∃ reason, t = s.takeFault reason i.handler.opcode ∧
      exec i s' = .next (s'.takeFault reason i.handler.opcode)) ∨ Completes s i t := by
  refine (exec_cases hx).imp_left ?_
  rintro ⟨reason, -, rfl⟩
  exact ⟨reason, rfl, exec_faultsAlike hs hc reason hx⟩

/-! ### The Flags Register (R31) -/

/-- What completes and is no CMP leaves FL alone. -/
theorem Completes.fl_eq (hc : Completes s i t) (hcmp : ∀ a b, i ≠ .cmp a b) : t.fl = s.fl := by
  cases hc with
  | cmp => exact absurd rfl (hcmp _ _)
  | _ => rfl

/-- Settles O29: a fault changes run state and record alone, and of what completes CMP alone writes FL. -/
theorem onlyCmpWritesFlags : Obligations.OnlyCmpWritesFlags := by
  intro i s t hcmp hx
  rcases exec_cases hx with ⟨reason, -, rfl⟩ | hc
  · rfl
  · exact hc.fl_eq hcmp

/-- With another FL, the same EQUAL bit where it is branched on, an instruction other than CMP completes alike and carries that
FL along. -/
theorem Completes.replace_fl (hc : Completes s i t) {f : Byte} (hcmp : ∀ a b, i ≠ .cmp a b)
    (hE : i.handler ∈ [Handler.jeq, .jne] → { s with fl := f }.flagE = s.flagE) :
    Completes { s with fl := f } i { t with fl := f } := by
  cases hc with
  | ldi r hr hpc => exact .ldi r hr hpc
  | prn r hr hpc => exact .prn r hr hpc
  | hlt => exact .hlt
  | add a b ha hb hpc => exact .add a b ha hb hpc
  | mul a b ha hb hpc => exact .mul a b ha hb hpc
  | push r hr hsp hpc => exact .push r hr hsp hpc
  | pop r hr hsp hpc => exact .pop r hr hsp hpc
  | call r hr hsp hpc => exact .call r hr hsp hpc
  | ret hsp => exact .ret hsp
  | cmp => exact absurd rfl (hcmp _ _)
  | jmp r hr => exact .jmp r hr
  | jeqTaken r hr h => exact .jeqTaken r hr ((hE (by simp [Instr.handler])).trans h)
  | jeqNot r hr h hpc => exact .jeqNot r hr ((hE (by simp [Instr.handler])).trans h) hpc
  | jneTaken r hr h => exact .jneTaken r hr ((hE (by simp [Instr.handler])).trans h)
  | jneNot r hr h hpc => exact .jneNot r hr ((hE (by simp [Instr.handler])).trans h) hpc

/-- A CMP that completes clears FL first (R149), so its next state is the same whatever FL was. -/
theorem Completes.replace_fl_cmp {a b f : Byte} (hc : Completes s (.cmp a b) t) :
    Completes { s with fl := f } (.cmp a b) t := by
  cases hc with
  | cmp i j ha hb hpc => exact .cmp (s := { s with fl := f }) i j ha hb hpc

theorem Completes.cmp_run {a b : Byte} (hc : Completes s (.cmp a b) t) : t.run = s.run := by
  cases hc with
  | cmp => rfl

/-- Settles O30: the checks look at no bit of FL but EQUAL, in JEQ and JNE, so faults are alike, and what completes is
`Completes.replace_fl` or, for CMP, `Completes.replace_fl_cmp`. -/
theorem flagsReadByConditionalJumpsAlone : Obligations.FlagsReadByConditionalJumpsAlone := by
  intro i s t f hs hx hbit
  have hE : i.handler ∈ [Handler.jeq, .jne] → { s with fl := f }.flagE = s.flagE := by
    intro hi
    cases i with
    | jeq r => exact hbit r (.inl rfl)
    | jne r => exact hbit r (.inr rfl)
    | _ => simp [Instr.handler] at hi
  rcases exec_cases_alike (s' := { s with fl := f }) hs ⟨rfl, rfl, fun _ => rfl, hE⟩ hx with ⟨reason, rfl, hx'⟩ | hc
  · exact ⟨fun _ => hx', nofun⟩
  · refine ⟨fun hor => (hc.replace_fl (fun a b hi => ?_) hE).exec_eq, ?_⟩
    · subst hi
      exact hor.elim (fun h => h a b rfl) fun h => h (hc.cmp_run.trans hs)
    · rintro a b rfl -
      exact hc.replace_fl_cmp.exec_eq

/-! ### The registers read and written (R23) -/

/-- What completes leaves every register its table row does not list as written. -/
theorem Completes.reg_of_not_written (hc : Completes s i t) {j : RegIndex} (hj : j.val ∉ registersWritten i) :
    t.reg j = s.reg j := by
  cases hc with
  | prn | hlt | cmp | jmp | jeqTaken | jeqNot | jneTaken | jneNot => rfl
  | ldi r hr | add r _ hr | mul r _ hr =>
    have hne : r ≠ j := fun h => hj (by simp [registersWritten, hr, h])
    exact s.reg_setReg_other hne _
  | push | call | ret =>
    have hne : spIndex ≠ j := fun h => hj (by simp [registersWritten, ← h, spIndex])
    exact State.reg_setReg_other _ hne _
  | pop r hr =>
    have hne : r ≠ j := fun h => hj (by simp [registersWritten, hr, h])
    have hsp : spIndex ≠ j := fun h => hj (by simp [registersWritten, ← h, spIndex])
    exact (State.reg_setReg_other _ hsp _).trans (s.reg_setReg_other hne _)

/-- Two states that agree in every field but the registers. -/
theorem State.replace_regs_eq {u : State} (hmem : u.mem = t.mem) (hpc : u.pc = t.pc) (hfl : u.fl = t.fl)
    (hrun : u.run = t.run) (hrec : u.record = t.record) (hout : u.out = t.out) : { u with regs := t.regs } = t := by
  cases t
  simp_all

theorem State.pushAddr_congr (hsp : s'.sp = s.sp) : s'.pushAddr = s.pushAddr := by
  rw [State.pushAddr, State.pushAddr, hsp]

theorem State.reg_setReg_congr {k j : RegIndex} {v v' : Byte} (hv : v' = v) (hj : k ≠ j → s'.reg j = s.reg j) :
    (s'.setReg k v').reg j = (s.setReg k v).reg j := by
  by_cases hkj : k = j
  · rw [hkj, State.reg_setReg_same, State.reg_setReg_same, hv]
  · rw [State.reg_setReg_other _ hkj, State.reg_setReg_other _ hkj, hj hkj]

theorem State.reg_decSp_congr {j : RegIndex} (hsp : s'.sp = s.sp) (hj : s'.reg j = s.reg j) :
    s'.decSp.reg j = s.decSp.reg j :=
  State.reg_setReg_congr (State.pushAddr_congr hsp) fun _ => hj

/-- The same write to two register files: the register a one-entry row of R23's table names ends alike, whatever it held. -/
theorem State.reg_setReg_congr_of_mem {n : Nat} {k : RegIndex} {v v' : Byte} (hk : n = k.val) (hv : v' = v) (j : RegIndex)
    (hj : j.val ∈ [n]) : (s'.setReg k v').reg j = (s.setReg k v).reg j :=
  State.reg_setReg_congr hv fun hne => absurd (Fin.ext ((List.mem_singleton.1 hj).trans hk).symm) hne

/-- With other registers, the same where the table lists them as read, an instruction completes alike but for the registers, and
writes the same values to those it writes. -/
theorem Completes.replace_regs (hc : Completes s i t) {other : Vector Byte Config.nregs}
    (hread : ∀ j : RegIndex, j.val ∈ registersRead s i → { s with regs := other }.reg j = s.reg j) :
    ∃ u, Completes { s with regs := other } i u ∧ { u with regs := t.regs } = t ∧
      ∀ j : RegIndex, j.val ∈ registersWritten i → u.reg j = t.reg j := by
  cases hc with
  | ldi r hr hpc => exact ⟨_, .ldi r hr hpc, rfl, State.reg_setReg_congr_of_mem hr rfl⟩
  | prn r hr hpc =>
    have hr' := hread r (by simp [registersRead, hr])
    exact ⟨_, .prn r hr hpc, State.replace_regs_eq rfl rfl rfl rfl rfl (by simp [hr']), nofun⟩
  | hlt => exact ⟨_, .hlt, rfl, nofun⟩
  | add a b ha hb hpc =>
    have ha' := hread a (by simp [registersRead, ha])
    have hb' := hread b (by simp [registersRead, hb])
    exact ⟨_, .add a b ha hb hpc, rfl, State.reg_setReg_congr_of_mem ha (by rw [ha', hb'])⟩
  | mul a b ha hb hpc =>
    have ha' := hread a (by simp [registersRead, ha])
    have hb' := hread b (by simp [registersRead, hb])
    exact ⟨_, .mul a b ha hb hpc, rfl, State.reg_setReg_congr_of_mem ha (by rw [ha', hb'])⟩
  | cmp a b ha hb hpc =>
    have ha' := hread a (by simp [registersRead, ha])
    have hb' := hread b (by simp [registersRead, hb])
    exact ⟨_, .cmp a b ha hb hpc, State.replace_regs_eq rfl rfl (congrArg₂ compareFlag ha' hb') rfl rfl rfl, nofun⟩
  | push r hr hsp hpc =>
    have hsp' : { s with regs := other }.sp = s.sp := hread spIndex List.mem_cons_self
    have hpush := State.pushAddr_congr hsp'
    have hr' := State.reg_decSp_congr hsp' (hread r (by simp [registersRead, hr]))
    exact ⟨_, .push r hr (hsp' ▸ hsp) hpc, State.replace_regs_eq (by simp [hpush, hr']) rfl rfl rfl rfl rfl,
      State.reg_setReg_congr_of_mem rfl hpush⟩
  | call r hr hsp hpc =>
    have hsp' : { s with regs := other }.sp = s.sp := hread spIndex List.mem_cons_self
    have hpush := State.pushAddr_congr hsp'
    have hr' := State.reg_decSp_congr hsp' (hread r (by simp [registersRead, hr]))
    exact ⟨_, .call r hr (hsp' ▸ hsp) hpc, State.replace_regs_eq (by simp [hpush]) hr' rfl rfl rfl rfl,
      State.reg_setReg_congr_of_mem rfl hpush⟩
  | pop r hr hsp hpc =>
    have hsp' : { s with regs := other }.sp = s.sp := hread spIndex List.mem_cons_self
    have hload : { s with regs := other }.loadTop = s.loadTop := State.loadTop_congr hsp' rfl
    have hset {j : RegIndex} (hj : r ≠ j → j = spIndex) :
        ({ s with regs := other }.setReg r { s with regs := other }.loadTop).reg j = (s.setReg r s.loadTop).reg j :=
      State.reg_setReg_congr hload fun hne => hj hne ▸ hsp'
    refine ⟨_, .pop r hr (State.popped_congr hsp' rfl r ▸ hsp) hpc, rfl, fun j hj => ?_⟩
    refine State.reg_setReg_congr (congrArg (· + 1#8) (hset fun _ => rfl)) fun hne => hset fun hrj => ?_
    simp only [registersWritten, hr, List.mem_cons, List.not_mem_nil, or_false] at hj
    exact Fin.ext (hj.resolve_left fun h => hrj (Fin.ext h.symm))
  | ret hsp =>
    have hsp' : { s with regs := other }.sp = s.sp := hread spIndex List.mem_cons_self
    exact ⟨_, .ret (hsp' ▸ hsp), State.replace_regs_eq rfl (State.loadTop_congr hsp' rfl) rfl rfl rfl rfl,
      State.reg_setReg_congr_of_mem rfl (congrArg (· + 1#8) hsp')⟩
  | jmp r hr =>
    have hr' := hread r (by simp [registersRead, hr])
    exact ⟨_, .jmp r hr, State.replace_regs_eq rfl hr' rfl rfl rfl rfl, nofun⟩
  | jeqTaken r hr hE =>
    have hr' := hread r (by simp [registersRead, hr, hE])
    exact ⟨_, .jeqTaken r hr hE, State.replace_regs_eq rfl hr' rfl rfl rfl rfl, nofun⟩
  | jeqNot r hr hE hpc => exact ⟨_, .jeqNot r hr hE hpc, rfl, nofun⟩
  | jneTaken r hr hE =>
    have hr' := hread r (by simp [registersRead, hr, hE])
    exact ⟨_, .jneTaken r hr hE, State.replace_regs_eq rfl hr' rfl rfl rfl rfl, nofun⟩
  | jneNot r hr hE hpc => exact ⟨_, .jneNot r hr hE hpc, rfl, nofun⟩

/-- An instruction that moves the stack pointer reads it. -/
theorem spIndex_mem_registersRead (hi : i.handler ∈ [Handler.push, .pop, .call, .ret]) :
    spIndex.val ∈ registersRead s i := by
  cases i with
  | push | pop | call | ret => exact List.mem_cons_self
  | _ => simp [Instr.handler] at hi

/-- Settles O31: what is not written is `Completes.reg_of_not_written`; the checks look at no register but a stack pointer that is
read, so faults are alike, and what completes is `Completes.replace_regs`. -/
theorem registersReadAndWritten : Obligations.RegistersReadAndWritten := by
  refine ⟨fun i s t hx j hj => ?_, fun i s t other hs hread hx => ?_⟩
  · rcases exec_cases hx with ⟨reason, -, rfl⟩ | hc
    · rfl
    · exact hc.reg_of_not_written hj
  · have hsame : SameChecks i s { s with regs := other } :=
      ⟨rfl, rfl, fun hi => hread spIndex (spIndex_mem_registersRead hi), fun _ => rfl⟩
    rcases exec_cases_alike hs hsame hx with ⟨reason, rfl, hx'⟩ | hc
    · exact ⟨_, hx', rfl, nofun⟩
    · obtain ⟨u, hu, hut, hw⟩ := hc.replace_regs hread
      exact ⟨u, hu.exec_eq, hut, fun _ => hw⟩

/-! ### LDI of register 7 (R24) -/

/-- What is stored at the top of the stack is read there. -/
theorem State.memRead_storeTop_sp (hm : s.mem.wf) (v : Byte) : (s.storeTop v).memRead s.sp = v := by
  rw [State.memRead, State.storeTop_mem, Memory.readByte_writeByte hm, if_pos rfl]

theorem RegIndex.toNat_ofNat_val (r : RegIndex) : (BitVec.ofNat 8 r.val).toNat = r.val := by
  have : r.val < 8 := r.isLt
  rw [BitVec.toNat_ofNat]
  omega

/-- Settles O39: both instructions complete, and LDI's write of register 7 is the stack pointer the PUSH decrements. -/
theorem ldiOfRegister7MovesStack : Obligations.LdiOfRegister7MovesStack := by
  intro s imm8 r hm himm hr hpc
  have hldi : Completes s (.ldi 7#8 imm8) ((s.setReg spIndex imm8).setPc (s.nextPc .ldi)) := .ldi spIndex rfl (by omega)
  generalize ht : (s.setReg spIndex imm8).setPc (s.nextPc .ldi) = t at hldi
  have hsp : t.sp = imm8 := ht ▸ s.reg_setReg_same spIndex imm8
  have hreg : t.reg r = s.reg r := ht ▸ s.reg_setReg_other hr.symm imm8
  have htpc : t.pc.toNat = s.pc.toNat + 3 := ht ▸ toNat_add_small s.pc (k := 3) (by omega)
  have htm : t.decSp.mem.wf := ht ▸ hm
  have hdec : t.decSp.sp = imm8 - 1#8 := by rw [State.sp_decSp, State.pushAddr, hsp]
  have hdreg : t.decSp.reg r = s.reg r := by rw [State.reg_decSp, if_neg hr.symm, hreg]
  have hpush : Completes t (.push (BitVec.ofNat 8 r.val)) ((t.decSp.storeTop (t.decSp.reg r)).setPc (t.nextPc .push)) :=
    .push r r.toNat_ofNat_val (hsp ▸ himm) (by omega)
  refine ⟨t, _, hldi.exec_eq, hpush.exec_eq, hdec, ?_⟩
  calc ((t.decSp.storeTop (t.decSp.reg r)).setPc (t.nextPc .push)).memRead (imm8 - 1#8)
      _ = (t.decSp.storeTop (t.decSp.reg r)).memRead t.decSp.sp := by rw [State.setPc_memRead, hdec]
      _ = t.decSp.reg r := State.memRead_storeTop_sp htm _
      _ = s.reg r := hdreg

end Sys2Proof.Machine

/-! ### Memory: writing one cell, and the canonical form (R50, R53) -/

namespace Sys2Proof.Machine

section OneMemory

variable {s : State}

/-- R52 after R53: the address written reads as the byte, every other address as before. -/
theorem State.memRead_memWrite (hm : s.mem.wf) (addr v b : Byte) :
    (s.memWrite addr v).memRead b = if b = addr then v else s.memRead b := by
  simp only [State.memRead, State.memWrite_mem, Memory.readByte_writeByte hm, BitVec.toNat_inj]

/-- Settles O33: the cells are `State.memRead_memWrite`, and a write is an update of the memory field alone. -/
theorem memWriteSetsOneCell : Obligations.MemWriteSetsOneCell :=
  fun _ addr v hm => ⟨State.memRead_memWrite hm addr v, rfl⟩

/-- The first cell of a canonical memory is seen by reading: no memory that lists only higher addresses reads alike there. -/
theorem Memory.readByte_head_ne {c : Host.Cell} {m n : Memory} (hm : Memory.wf (c :: m)) (hn : ∀ d ∈ n, c.1 < d.1) :
    Memory.readByte (c :: m) c.1 ≠ n.readByte c.1 := by
  rw [Memory.readByte_head, Memory.readByte_of_forall_lt hn]
  exact (hm.2 c List.mem_cons_self).2

/-- A cell below the first one of a canonical memory is below all of them. -/
theorem Memory.lt_of_lt_head {c d : Host.Cell} {n : Memory} (hn : Memory.wf (d :: n)) (hcd : c.1 < d.1) :
    ∀ e ∈ d :: n, c.1 < e.1 :=
  List.forall_mem_cons.2 ⟨hcd, fun e he => hcd.trans (Memory.head_lt hn e he)⟩

/-- Two canonical memories with first cells at one address that read alike at an address have tails that read alike there. -/
theorem Memory.readByte_tail_eq {c d : Host.Cell} {m n : Memory} (hm : Memory.wf (c :: m)) (hn : Memory.wf (d :: n))
    (hcd : c.1 = d.1) {addr : Nat} (hread : Memory.readByte (c :: m) addr = Memory.readByte (d :: n) addr) :
    m.readByte addr = n.readByte addr := by
  by_cases hc : c.1 = addr
  · subst hc
    rw [Memory.readByte_of_forall_lt (Memory.head_lt hm), Memory.readByte_of_forall_lt (hcd ▸ Memory.head_lt hn)]
  · rwa [Memory.readByte_cons, Memory.readByte_cons, if_neg hc, if_neg (hcd ▸ hc)] at hread

/-- Settles O34, by induction on one memory: first cells at two addresses would be seen at the lower one
(`Memory.readByte_head_ne`), so both memories begin with the same cell, and their tails read alike. -/
theorem canonicalMemoriesReadAlikeAreEqual : Obligations.CanonicalMemoriesReadAlikeAreEqual := by
  intro m
  induction m with
  | nil =>
    intro n _ hn hread
    cases n with
    | nil => rfl
    | cons d n =>
      exact absurd (hread d.1 (hn.2 d List.mem_cons_self).1).symm (Memory.readByte_head_ne hn nofun)
  | cons c m ih =>
    intro n hm hn hread
    have hreadc := hread c.1 (hm.2 c List.mem_cons_self).1
    cases n with
    | nil => exact absurd hreadc (Memory.readByte_head_ne hm nofun)
    | cons d n =>
      rcases Nat.lt_trichotomy c.1 d.1 with hlt | heq | hgt
      · exact absurd hreadc (Memory.readByte_head_ne hm (Memory.lt_of_lt_head hn hlt))
      · have hcell : c = d := Prod.ext heq (by rwa [Memory.readByte_head, heq, Memory.readByte_head] at hreadc)
        have htail : m = n := ih n (Memory.wf_tail hm) (Memory.wf_tail hn) fun addr haddr =>
          Memory.readByte_tail_eq hm hn heq (hread addr haddr)
        rw [hcell, htail]
      · exact absurd (hread d.1 (hn.2 d List.mem_cons_self).1).symm
          (Memory.readByte_head_ne hn (Memory.lt_of_lt_head hm hgt))

end OneMemory

section OneStep

variable {s t : State} {i : Instr}

/-! ### Who writes memory and output (R54, R42) -/

/-- What completes and is neither PUSH nor CALL leaves memory alone. -/
theorem Completes.mem_eq (hc : Completes s i t) (hi : ∀ r, i ≠ .push r ∧ i ≠ .call r) : t.mem = s.mem := by
  cases hc with
  | push => exact absurd rfl (hi _).1
  | call => exact absurd rfl (hi _).2
  | _ => rfl

/-- What completes leaves every cell but the one a push writes. -/
theorem Completes.readByte_of_ne_pushAddr (hc : Completes s i t) {addr : Nat} (ha : addr ≠ s.pushAddr.toNat) :
    t.mem.readByte addr = s.mem.readByte addr := by
  cases hc with
  | push | call => exact Memory.readByte_writeByte_other s.mem _ (s.sp_decSp.symm ▸ ha)
  | _ => rfl

/-- What completes and is no PRN leaves the output stream alone. -/
theorem Completes.out_eq (hc : Completes s i t) (hi : ∀ r, i ≠ .prn r) : t.out = s.out := by
  cases hc with
  | prn => exact absurd rfl (hi _)
  | _ => rfl

/-- Settles O32: a fault changes run state and record alone, and what completes is framed clause by clause. -/
theorem memoryAndOutputFrame : Obligations.MemoryAndOutputFrame := by
  intro i s t hx
  rcases exec_cases hx with ⟨reason, -, rfl⟩ | hc
  · exact ⟨fun _ _ => rfl, fun _ _ => rfl, fun _ => rfl⟩
  · exact ⟨fun hi _ => by rw [hc.mem_eq hi], fun _ => hc.readByte_of_ne_pushAddr, hc.out_eq⟩

/-! ### The invariant (R50, R30, R32, R35, R204) -/

theorem compareFlag_legal (x y : Byte) : flLegal (compareFlag x y) := by
  rw [compareFlag]
  split
  · exact .inr (.inl rfl)
  · split
    · exact .inr (.inr (.inr rfl))
    · exact .inr (.inr (.inl rfl))

/-- Outside `Faulted` the record agrees with the run state when it is empty. -/
theorem State.recordAgrees_iff (hs : s.run = .running ∨ s.run = .halted) : s.recordAgrees ↔ s.record = none := by
  rcases hs with hs | hs <;> rw [State.recordAgrees, hs]

/-- A push stores inside the address space, and nothing else writes memory. -/
theorem Completes.mem_wf (hc : Completes s i t) (hm : s.mem.wf) : t.mem.wf := by
  cases hc with
  | push | call => exact State.storeTop_wf (s := s.decSp) hm _
  | _ => exact hm

/-- CMP leaves one flag set, and nothing else writes FL. -/
theorem Completes.fl_legal (hc : Completes s i t) (hf : flLegal s.fl) : flLegal t.fl := by
  cases hc with
  | cmp => exact compareFlag_legal _ _
  | _ => exact hf

/-- What completes in a running machine leaves the record empty, and the machine running or halted. -/
theorem Completes.recordAgrees (hc : Completes s i t) (hs : s.run = .running) (hr : s.recordAgrees) : t.recordAgrees := by
  obtain ⟨hrec, hrun⟩ := hc.run_record
  have hnone : s.record = none := (State.recordAgrees_iff (.inl hs)).1 hr
  exact (State.recordAgrees_iff (hrun.imp (·.trans hs) And.right)).2 (hrec.trans hnone)

theorem Completes.inv (hc : Completes s i t) (hs : s.run = .running) (h : s.Inv) : t.Inv :=
  ⟨hc.mem_wf h.memWf, hc.fl_legal h.flOk, hc.recordAgrees hs h.recAgrees⟩

/-- Taking a fault writes the record of its reason and keeps memory and FL. -/
theorem State.Inv.takeFault (h : s.Inv) (reason : FaultReason) (ir : Byte) : (s.takeFault reason ir).Inv :=
  ⟨h.memWf, h.flOk, s.pc, some ir, rfl⟩

/-- Settles O21: a step takes a fault or completes the instruction fetched, and both keep the invariant. -/
theorem stepKeepsInvariant : Obligations.StepKeepsInvariant := by
  intro s t h hx
  obtain ⟨hs, ⟨reason, -, rfl⟩ | ⟨i, -, hc⟩⟩ := step_outcome hx
  · exact h.takeFault reason s.ir
  · exact hc.inv hs h

/-! ### Storing what is fetched next (R66) -/

/-- A PUSH of a register other than 7 that completes leaves that register's value in the cell pushed. -/
theorem Completes.memRead_pushAddr {opA : Byte} {r : RegIndex} (hc : Completes s (.push opA) t) (hm : s.mem.wf)
    (hr : opA.toNat = r.val) (hsp : r ≠ spIndex) : t.memRead s.pushAddr = s.reg r := by
  cases hc with
  | push k hk =>
    obtain rfl : k = r := Fin.ext (hk.symm.trans hr)
    calc ((s.decSp.storeTop (s.decSp.reg k)).setPc (s.nextPc .push)).memRead s.pushAddr
        _ = (s.decSp.storeTop (s.decSp.reg k)).memRead s.decSp.sp := by rw [State.setPc_memRead, State.sp_decSp]
        _ = s.decSp.reg k := State.memRead_storeTop_sp (s := s.decSp) hm _
        _ = s.reg k := by rw [State.reg_decSp, if_neg hsp.symm]

/-- A running machine with HLT's opcode at the PC halts: HLT has no operand bytes to fetch. -/
theorem step_of_ir_hlt (hs : s.run = .running) (hir : s.ir = Handler.hlt.opcode) : step s = .next s.halt := by
  have hf : s.fetch = .ok .hlt := State.fetch_of_bytes (i := .hlt) hir rfl
  rw [step_of_fetch_ok hs hf, exec, execHlt_eq]

/-- Settles O40: the byte at the PC is the one the PUSH stored, which is HLT's opcode. -/
theorem pushedByteIsFetched : Obligations.PushedByteIsFetched := by
  intro s t opA r hm hr hsp _ hop hx ht hpc
  have hir : t.ir = Handler.hlt.opcode :=
    calc t.ir
        _ = t.memRead s.pushAddr := by rw [State.ir, hpc]
        _ = s.reg r := (exec_completes hx ht).memRead_pushAddr hm hr hsp
        _ = Handler.hlt.opcode := hop
  exact step_of_ir_hlt ht hir

end OneStep

end Sys2Proof.Machine

/-! ### Decoding and encoding (R80 to R83, R86, R88) -/

namespace Sys2Proof

/-- Settles O1: what decodes begins with its encoding (`decode_ok`), and an encoding decodes whatever bytes follow it. -/
theorem decodeInvertsEncode : Obligations.DecodeInvertsEncode := by
  intro bytes i
  constructor
  · intro hd
    obtain ⟨rest, rfl⟩ := decode_ok hd
    exact ⟨rest, rfl⟩
  · rintro ⟨rest, rfl⟩
    exact (Laws.RoundTrip.of_assemble i).2 rest

theorem dispatchTable_eq_some {b : Byte} {h : Handler} : dispatchTable b = some h ↔ h.opcode = b :=
  ⟨opcode_of_dispatchTable, fun hb => hb ▸ dispatchTable_opcode h⟩

/-- The table answers one handler for a byte, so two handlers with one opcode are one. -/
theorem Handler.opcode_injective : Function.Injective Handler.opcode := by
  intro h k hhk
  have hsome : some h = some k := by rw [← dispatchTable_opcode h, hhk, dispatchTable_opcode]
  exact Option.some.inj hsome

theorem dispatchTable_ne_none {b : Byte} : dispatchTable b ≠ none ↔ ∃ h : Handler, h.opcode = b := by
  simp only [Option.ne_none_iff_exists', dispatchTable_eq_some]

theorem Handler.nodup_opcode_toNat : (Handler.all.map fun h => h.opcode.toNat).Nodup :=
  List.Nodup.map (fun _ _ heq => Handler.opcode_injective (BitVec.eq_of_toNat_eq heq)) (by decide)

/-- The byte values that select a handler are the opcodes of the handlers, each once. -/
theorem known_perm_opcodes :
    ((List.range 256).filter fun n => ¬ dispatchTable (BitVec.ofNat 8 n) = none).Perm
      (Handler.all.map fun h => h.opcode.toNat) := by
  refine (List.perm_ext_iff_of_nodup (List.nodup_range.filter _) Handler.nodup_opcode_toNat).2 fun n => ?_
  simp only [List.mem_filter, List.mem_range, decide_eq_true_eq, List.mem_map]
  constructor
  · rintro ⟨hn, hknown⟩
    obtain ⟨h, hh⟩ := dispatchTable_ne_none.1 hknown
    exact ⟨h, h.mem_all, by rw [hh, BitVec.toNat_ofNat, Nat.mod_eq_of_lt hn]⟩
  · rintro ⟨h, -, rfl⟩
    exact ⟨h.opcode.isLt, dispatchTable_ne_none.2 ⟨h, by rw [BitVec.ofNat_toNat, BitVec.setWidth_eq]⟩⟩

/-- R88: of the 256 byte values, those of the thirteen opcodes are known and the others are not. -/
theorem unknown_count :
    ((List.range 256).filter fun n => dispatchTable (BitVec.ofNat 8 n) = none).length = 243 := by
  have hknown := known_perm_opcodes.length_eq
  have hsplit := (List.range 256).length_eq_length_filter_add fun n => dispatchTable (BitVec.ofNat 8 n) = none
  simp only [← decide_not] at hsplit
  rw [hknown, List.length_map, List.length_range, show Handler.all.length = 13 from rfl] at hsplit
  omega

/-- Settles O3: the table inverts `Handler.opcode`, and the unknown byte values are what the opcodes leave of 256. -/
theorem dispatchByWholeOpcodeByte : Obligations.DispatchByWholeOpcodeByte :=
  ⟨fun _ _ => dispatchTable_eq_some, fun _ _ heq => Handler.opcode_injective heq, rfl, unknown_count⟩

end Sys2Proof

/-! ### The execution loop (R110 to R122) -/

namespace Sys2Proof.Machine

section ExecutionLoop

variable {s t u : State} {i : Instr} {k n : Nat}

/-- A byte list read from the PC that decodes holds the opcode and all operand bytes of the instruction, so the fetch
finds it too. -/
theorem State.fetch_of_decode (hd : decode (s.mem.bytesFrom n s.pc.toNat) = .ok i) : s.fetch = .ok i := by
  obtain ⟨rest, hbytes⟩ := decode_ok hd
  cases n with
  | zero => cases hbytes
  | succ m =>
    rw [s.mem.bytesFrom_succ s.pc.isLt] at hbytes
    obtain ⟨hir, hops⟩ := List.cons.inj hbytes
    have hwidth : i.handler.width - 1 = i.operandBytes.length := by have := i.operandBytes_length; omega
    have hm : i.operandBytes.length ≤ m := by
      have hlen := congrArg List.length hops
      rw [Memory.bytesFrom_length, List.length_append] at hlen
      omega
    refine State.fetch_of_bytes hir ?_
    calc s.mem.bytesFrom (i.handler.width - 1) (s.pc.toNat + 1)
        _ = s.mem.bytesFrom (min i.operandBytes.length m) (s.pc.toNat + 1) := by rw [hwidth, Nat.min_eq_left hm]
        _ = (i.operandBytes ++ rest).take i.operandBytes.length := by rw [← Memory.bytesFrom_take, hops]
        _ = i.operandBytes := List.take_left

/-- Settles O4: the fetch finds the instruction that the bytes at the PC decode to, and the step runs what it fetched. -/
theorem stepRunsDecodedInstruction : Obligations.StepRunsDecodedInstruction :=
  fun _ _ _ hs hd => step_of_fetch_ok hs (State.fetch_of_decode hd)

/-- R119: a fault's entry and an instruction's effect are both next states. -/
theorem step_answers (hs : s.run = .running) : answersNext (step s) := by
  cases hf : s.fetch with
  | ok i => exact step_of_fetch_ok hs hf ▸ exec_next i s
  | error reason => exact ⟨_, step_of_fetch_error hs hf⟩

/-- Settles O5: a step that answers ran in `Running` (`step_cases`), and in `Running` it answers. -/
theorem stepExistsExactlyWhileRunning : Obligations.StepExistsExactlyWhileRunning :=
  fun _ => ⟨fun ⟨_, hx⟩ => (step_cases hx).1, step_answers⟩

/-- Settles O7: the fetch gives the instruction of the operand bytes where they lie in memory, and the fault where not. -/
theorem operandFetch : Obligations.OperandFetch := by
  intro s h hs hir
  constructor
  · intro hfit
    obtain ⟨i, hi, hops, hf⟩ := State.fetch_of_fits hir hfit
    have hw := h.one_le_width
    exact ⟨i, hi, hops.trans (s.mem.bytesFrom_eq_map (by omega)), step_of_fetch_ok hs hf⟩
  · intro hbeyond
    rw [step_of_fetch_error hs (State.fetch_of_beyond hir hbeyond), show s.ir = h.opcode from hir]
    exact raisesFault_takeFault s _ _

/-! ### The run operation -/

/-- `k` steps lead from `s` to `t`, and every state before `t` is `Running`. -/
def RunsTo (k : Nat) (s t : State) : Prop :=
  Sys2Proof.core.run k s = .next t ∧ ∀ j, j < k → ∃ u : State, Sys2Proof.core.run j s = .next u ∧ u.run = .running

theorem runsTo_zero : RunsTo 0 s t ↔ s = t := by
  constructor
  · rintro ⟨hx, -⟩
    cases hx
    rfl
  · rintro rfl
    exact ⟨rfl, fun j hj => absurd hj j.not_lt_zero⟩

theorem RunsTo.running (h : RunsTo (k + 1) s t) : s.run = .running := by
  obtain ⟨u, hu, hrun⟩ := h.2 0 k.succ_pos
  cases hu
  exact hrun

theorem runsTo_succ (hx : step s = .next u) : RunsTo (k + 1) s t ↔ RunsTo k u t := by
  rw [RunsTo, RunsTo, coreRun_succ k hx]
  refine and_congr_right fun _ => ⟨fun h j hj => ?_, fun h j hj => ?_⟩
  · rw [← coreRun_succ j hx]
    exact h (j + 1) (Nat.succ_lt_succ hj)
  · cases j with
    | zero => exact ⟨s, rfl, (step_cases hx).1⟩
    | succ j =>
      rw [coreRun_succ j hx]
      exact h j (Nat.lt_of_succ_lt_succ hj)

/-- From a terminal state no step leads on. -/
theorem runsTo_of_terminal (hs : s.run ≠ .running) : RunsTo k s t ↔ k = 0 ∧ s = t := by
  cases k with
  | zero => rw [runsTo_zero, and_iff_right rfl]
  | succ k => exact ⟨fun h => absurd h.running hs, fun h => absurd h.1 k.succ_ne_zero⟩

theorem runLoop_eq_some_iff_of_terminal (fuel : Nat) (hs : s.run ≠ .running) :
    runLoop fuel s = some t ↔ t.run ≠ .running ∧ ∃ k, k ≤ fuel ∧ RunsTo k s t := by
  simp only [runLoop_terminal fuel hs, runsTo_of_terminal hs, Option.some.injEq]
  constructor
  · rintro rfl
    exact ⟨hs, 0, fuel.zero_le, rfl, rfl⟩
  · rintro ⟨-, -, -, -, hst⟩
    exact hst

/-- A running machine spends one unit of fuel on its first step, and the rest on what follows it. -/
theorem exists_runsTo_succ (fuel : Nat) (hx : step s = .next u) (ht : t.run ≠ .running) :
    (∃ k, k ≤ fuel + 1 ∧ RunsTo k s t) ↔ ∃ k, k ≤ fuel ∧ RunsTo k u t := by
  constructor
  · rintro ⟨k, hk, hrun⟩
    cases k with
    | zero =>
      obtain rfl := runsTo_zero.1 hrun
      exact absurd (step_cases hx).1 ht
    | succ k => exact ⟨k, Nat.le_of_succ_le_succ hk, (runsTo_succ hx).1 hrun⟩
  · rintro ⟨k, hk, hrun⟩
    exact ⟨k + 1, Nat.succ_le_succ hk, (runsTo_succ hx).2 hrun⟩

theorem runLoop_eq_some_iff (fuel : Nat) (s t : State) :
    runLoop fuel s = some t ↔ t.run ≠ .running ∧ ∃ k, k ≤ fuel ∧ RunsTo k s t := by
  induction fuel generalizing s with
  | zero =>
    by_cases hs : s.run = .running
    · rw [runLoop_zero_running hs]
      refine ⟨nofun, ?_⟩
      rintro ⟨ht, k, hk, hrun⟩
      obtain rfl := Nat.le_zero.1 hk
      obtain rfl := runsTo_zero.1 hrun
      exact absurd hs ht
    · exact runLoop_eq_some_iff_of_terminal 0 hs
  | succ fuel ih =>
    by_cases hs : s.run = .running
    · obtain ⟨u, hx⟩ := step_answers hs
      rw [runLoop_succ fuel hx, ih u]
      exact and_congr_right fun ht => (exists_runsTo_succ fuel hx ht).symm
    · exact runLoop_eq_some_iff_of_terminal (fuel + 1) hs

/-- Settles O48, by induction on the fuel (`runLoop_eq_some_iff`). -/
theorem runEndsAtFirstTerminalState : Obligations.RunEndsAtFirstTerminalState := runLoop_eq_some_iff

/-! ### A jump to itself -/

/-- Steps that lead back to the state they began in never end. -/
theorem runLoop_of_step_self (hx : step s = .next s) (fuel : Nat) : runLoop fuel s = none := by
  induction fuel with
  | zero => exact runLoop_zero_running (step_cases hx).1
  | succ fuel ih => rw [runLoop_succ fuel hx, ih]

theorem State.setPc_pc_self (s : State) : s.setPc s.pc = s := rfl

/-- Settles O49: the fetch finds the JMP, which writes the PC's own value into the PC, so the step answers the same state. -/
theorem selfJumpNeverEnds : Obligations.SelfJumpNeverEnds := by
  intro s r hs hpc hop hopA hr
  have hf : s.fetch = .ok (.jmp (s.memRead (s.pc + 1#8))) := by
    refine State.fetch_of_bytes hop ?_
    rw [s.memRead_pc_add (k := 1) (by omega)]
    exact s.mem.bytesFrom_eq_map (n := 1) (by omega)
  have hx : step s = .next s :=
    calc step s
        _ = exec (.jmp (s.memRead (s.pc + 1#8))) s := step_of_fetch_ok hs hf
        _ = .next (s.setPc (s.reg r)) := (Completes.jmp r hopA).exec_eq
        _ = .next s := by rw [hr, State.setPc_pc_self]
  exact runLoop_of_step_self hx

end ExecutionLoop

end Sys2Proof.Machine

/-! ### The common part of a step, per width (R112 to R114) -/

namespace Sys2Proof.Machine

section FetchPerWidth

variable {h : Handler} {s : State}

/-- Width 1: there are no operand bytes to read, so the fetch finds the instruction at every PC. -/
theorem fetchesWidth1_of_operandBytes {i : Instr} (hops : i.operandBytes = []) : fetchesWidth1 i.handler.opcode i := by
  intro s hs hop
  have hw : i.handler.width = 1 := by rw [← i.operandBytes_length, hops, List.length_nil]
  refine step_of_fetch_ok hs (State.fetch_of_bytes hop ?_)
  rw [hw, hops]
  rfl

/-- Width 2: the operand byte lies at `pc + 1`, or above address 255. -/
theorem fetchesWidth2_of_operandBytes {i : Byte → Instr} (hi : ∀ opA, (i opA).handler = h)
    (hops : ∀ opA, (i opA).operandBytes = [opA]) : fetchesWidth2 h.opcode i := by
  intro s hs hop
  have hw : h.width = 2 := by rw [← hi 0#8, ← Instr.operandBytes_length, hops, List.length_singleton]
  refine ⟨fun hpc => ?_, fun hpc => (operandFetch s h hs hop).2 (by omega)⟩
  refine step_of_fetch_ok hs (State.fetch_of_bytes (hop.trans (congrArg _ (hi _).symm)) ?_)
  rw [hi, hw, hops, s.mem.bytesFrom_eq_map (by omega), s.memRead_pc_add (k := 1) (by omega)]
  rfl

/-- Width 3: the operand bytes lie at `pc + 1` and `pc + 2`, or the last of them above address 255. -/
theorem fetchesWidth3_of_operandBytes {i : Byte → Byte → Instr} (hi : ∀ opA opB, (i opA opB).handler = h)
    (hops : ∀ opA opB, (i opA opB).operandBytes = [opA, opB]) : fetchesWidth3 h.opcode i := by
  intro s hs hop
  have hw : h.width = 3 := by
    rw [← hi 0#8 0#8, ← Instr.operandBytes_length, hops, List.length_cons, List.length_singleton]
  refine ⟨fun hpc => ?_, fun hpc => (operandFetch s h hs hop).2 (by omega)⟩
  refine step_of_fetch_ok hs (State.fetch_of_bytes (hop.trans (congrArg _ (hi _ _).symm)) ?_)
  rw [hi, hw, hops, s.mem.bytesFrom_eq_map (by omega), s.memRead_pc_add (k := 1) (by omega),
    s.memRead_pc_add (k := 2) (by omega)]
  rfl

/-! ### The checks raise the faults the rules name (R115, R116) -/

theorem raisesFault_withReg {operand : Byte} {k : RegIndex → Result} (hr : 7 < operand.toNat) :
    raisesFault s (withReg h operand s k) .invalidRegister h.opcode :=
  withReg_of_above hr ▸ raisesFault_raise s _ h

theorem raisesFault_withNextPc {k : Byte → Result} (hpc : 256 ≤ s.pc.toNat + h.width) :
    raisesFault s (withNextPc h s k) .pcOutOfRange h.opcode :=
  withNextPc_of_le hpc ▸ raisesFault_raise s _ h

theorem raisesFault_withStackRoom {leaves : Bool} {k : Result} (hl : leaves = true) :
    raisesFault s (withStackRoom h leaves s k) .stackFault h.opcode := by
  rw [hl, withStackRoom_leaves]
  exact raisesFault_raise s _ h

end FetchPerWidth

/-! ### LDI, PRN and HLT (R130 to R134) -/

section LoadPrintHalt

variable {s t : State}

/-- Settles O8: the effect is `Completes.ldi`, and each fault is that of the check that fails first. -/
theorem ldiLoadsImmediate : Obligations.LdiLoadsImmediate := by
  refine ⟨fetchesWidth3_of_operandBytes (h := .ldi) (fun _ _ => rfl) fun _ _ => rfl, fun s opA imm8 => ?_⟩
  refine ⟨fun hr => ?_, fun r hr => ⟨fun hpc => (Completes.ldi r hr hpc).exec_eq, fun hpc => ?_⟩⟩
  · rw [exec, execLdi]
    exact raisesFault_withReg hr
  · rw [exec, execLdi, withReg_of_names hr]
    exact raisesFault_withNextPc hpc

/-- Settles O9: the effect is `Completes.prn`, and each fault is that of the check that fails first. -/
theorem prnEmitsRegister : Obligations.PrnEmitsRegister := by
  refine ⟨fetchesWidth2_of_operandBytes (h := .prn) (fun _ => rfl) fun _ => rfl, fun s opA => ?_⟩
  refine ⟨fun hr => ?_, fun r hr => ⟨fun hpc => (Completes.prn r hr hpc).exec_eq, fun hpc => ?_⟩⟩
  · rw [exec, execPrn]
    exact raisesFault_withReg hr
  · rw [exec, execPrn, withReg_of_names hr]
    exact raisesFault_withNextPc hpc

/-- Settles O10: HLT has no operand byte and no check. -/
theorem hltHalts : Obligations.HltHalts :=
  ⟨fetchesWidth1_of_operandBytes (i := .hlt) rfl, execHlt_eq⟩

theorem Completes.reg_of_ldi {opA imm8 : Byte} (hc : Completes s (.ldi opA imm8) t) {r : RegIndex}
    (hr : opA.toNat = r.val) : t.reg r = imm8 := by
  cases hc with
  | ldi k hk =>
    obtain rfl : k = r := Fin.ext (hk.symm.trans hr)
    exact s.reg_setReg_same k imm8

theorem Completes.out_of_prn {opA : Byte} (hc : Completes s (.prn opA) t) :
    ∃ r : RegIndex, opA.toNat = r.val ∧ t.out = s.out ++ [s.reg r] := by
  cases hc with
  | prn r hr => exact ⟨r, hr, rfl⟩

/-- Settles O38: the PRN emits the register its operand byte names, which is the one the LDI wrote. -/
theorem ldiThenPrnEmitsImmediate : Obligations.LdiThenPrnEmitsImmediate := by
  intro s t u opA imm8 _ hldi ht hprn hu
  have hload : Completes s (.ldi opA imm8) t := exec_completes hldi ht
  obtain ⟨r, hr, hout⟩ := (exec_completes hprn hu).out_of_prn
  rw [hout, hload.out_eq nofun, hload.reg_of_ldi hr]

/-! ### HLT alone can never fault (R134, R215) -/

/-- A state in which every handler but HLT's faults: its opcode in the last memory cell, the PC there, and the stack pointer
at 255. -/
def lastCellState (h : Handler) : State :=
  { State.reset.setSp 255#8 with mem := [(255, h.opcode)], pc := 255#8 }

theorem lastCellState_memRead (h : Handler) : (lastCellState h).memRead (lastCellState h).pc = h.opcode := rfl

theorem lastCellState_run (h : Handler) : (lastCellState h).run = .running := rfl

theorem eq_hlt_or_ret_of_width_le_one {h : Handler} (hw : h.width ≤ 1) : h = .hlt ∨ h = .ret := by
  cases h <;> simp [Handler.width] at hw ⊢

/-- An instruction with operand bytes cannot fetch them above address 255, and RET cannot pop at 255 (D4, D5). -/
theorem step_lastCellState_raisesFault {h : Handler} (hh : h ≠ .hlt) :
    ∃ reason, raisesFault (lastCellState h) (step (lastCellState h)) reason h.opcode := by
  have hs := lastCellState_run h
  have hop := lastCellState_memRead h
  rcases Nat.lt_or_ge 1 h.width with hw | hw
  · have hbeyond : 256 < (lastCellState h).pc.toNat + h.width := Nat.add_lt_add_left hw 255
    exact ⟨_, (operandFetch _ h hs hop).2 hbeyond⟩
  · obtain rfl := (eq_hlt_or_ret_of_width_le_one hw).resolve_left hh
    refine ⟨.stackFault, ?_⟩
    rw [fetchesWidth1_of_operandBytes (i := .ret) rfl _ hs hop, exec, execRet]
    exact raisesFault_withStackRoom rfl

/-- Settles O28: a step that finds HLT's opcode halts, and every other handler's step faults in its `lastCellState`. -/
theorem onlyHltNeverFaults : Obligations.OnlyHltNeverFaults := by
  intro h
  constructor
  · rintro rfl s t reason hs hop hx
    rw [step_of_ir_hlt hs hop] at hx
    cases hx
    exact nofun
  · intro hnever
    by_contra hh
    obtain ⟨reason, t, hx, hfaulted, -, -⟩ := step_lastCellState_raisesFault hh
    exact hnever _ t reason (lastCellState_run h) (lastCellState_memRead h) hx hfaulted

end LoadPrintHalt

end Sys2Proof.Machine

/-! ### The ALU and its instructions ADD, MUL and CMP (R140 to R149) -/

namespace Sys2Proof.Machine

section AluInstructions

variable {s : State} {h : Handler}

theorem raisesFault_withRegs {opA opB : Byte} {k : RegIndex → RegIndex → Result} (hr : 7 < opA.toNat ∨ 7 < opB.toNat) :
    raisesFault s (withRegs h opA opB s k) .invalidRegister h.opcode :=
  withRegs_of_above hr ▸ raisesFault_raise s _ h

/-- The shape of the rules R145, R147 and R149: an instruction that checks two register operands and then the next sequential
PC, and commits what the ALU answers in the state prepared for it. -/
theorem aluInstrRule (h : Handler) (i : Byte → Byte → Instr) (tag : AluTag) (prepare : State → State)
    {effect : State → RegIndex → RegIndex → State} (hi : ∀ opA opB, (i opA opB).handler = h)
    (hops : ∀ opA opB, (i opA opB).operandBytes = [opA, opB]) (hw : h.width = 3)
    (hexec : ∀ opA opB s, exec (i opA opB) s = withRegs h opA opB s fun a b => withNextPc h s fun npc =>
      commitAlu h s npc (alu tag a b (prepare s)))
    (heffect : ∀ s a b, commitAlu h s (s.pc + 3#8) (alu tag a b (prepare s)) = .next (effect s a b)) :
    fetchesWidth3 h.opcode i ∧
    ∀ (s : State) (opA opB : Byte),
      (7 < opA.toNat ∨ 7 < opB.toNat → raisesFault s (exec (i opA opB) s) .invalidRegister h.opcode) ∧
      ∀ a b : RegIndex, opA.toNat = a.val → opB.toNat = b.val →
        (s.pc.toNat + 3 < 256 → exec (i opA opB) s = .next (effect s a b)) ∧
        (256 ≤ s.pc.toNat + 3 → raisesFault s (exec (i opA opB) s) .pcOutOfRange h.opcode) := by
  refine ⟨fetchesWidth3_of_operandBytes hi hops, fun s opA opB => ?_⟩
  rw [hexec, ← hw]
  refine ⟨raisesFault_withRegs, fun a b ha hb => ?_⟩
  rw [withRegs_of_names ha hb]
  refine ⟨fun hpc => ?_, raisesFault_withNextPc⟩
  rw [withNextPc_of_lt hpc, hw, heffect]

/-! ### What the ALU computes (R141 to R144, D2, D20) -/

theorem ofNat_mod256 (n : Nat) : BitVec.ofNat 8 (n % 256) = BitVec.ofNat 8 n :=
  BitVec.eq_of_toNat_eq (by simp)

/-- EQUAL is bit 0, LESS bit 2 and GREATER bit 1, and equal numbers are equal bytes. -/
theorem compareFlag_eq (x y : Byte) :
    compareFlag x y = if x = y then 0b001#8 else if x.toNat < y.toNat then 0b100#8 else 0b010#8 := by
  simp only [compareFlag, BitVec.toNat_inj]
  rfl

/-- A legal FL has no hardwired bit. -/
theorem flLegal.and_flMask {fl : Byte} (hf : flLegal fl) : fl &&& flMask = fl := by
  rcases hf with rfl | rfl | rfl | rfl <;> rfl

/-- Setting a comparison's flag in a legal FL clears no bit. -/
theorem State.setFl_or_compareFlag (hf : flLegal s.fl) (x y : Byte) :
    s.setFl (s.fl ||| compareFlag x y) = { s with fl := s.fl ||| compareFlag x y } := by
  have hmask : (s.fl ||| compareFlag x y) &&& flMask = s.fl ||| compareFlag x y :=
    calc (s.fl ||| compareFlag x y) &&& flMask
        _ = s.fl &&& flMask ||| compareFlag x y &&& flMask := BitVec.and_or_distrib_right
        _ = s.fl ||| compareFlag x y := by rw [hf.and_flMask, (compareFlag_legal x y).and_flMask]
  rw [State.setFl, hmask]

/-! ### ADD, MUL and CMP (R145, R147, R149) -/

/-- Settles O11: the common shape is `aluInstrRule`, and the sum narrowed is the sum modulo 256. -/
theorem addWrapsModulo256 : Obligations.AddWrapsModulo256 := by
  refine aluInstrRule .add .add .add id (fun _ _ => rfl) (fun _ _ => rfl) rfl (fun _ _ _ => rfl) fun s a b => ?_
  rw [alu, commitAlu_ok, mod256_add, ofNat_mod256]
  rfl

/-- Settles O12: the common shape is `aluInstrRule`, and the product narrowed is the product modulo 256. -/
theorem mulKeepsLowByte : Obligations.MulKeepsLowByte := by
  refine aluInstrRule .mul .mul .mul id (fun _ _ => rfl) (fun _ _ => rfl) rfl (fun _ _ _ => rfl) fun s a b => ?_
  rw [alu, commitAlu_ok, mod256_mul, ofNat_mod256]
  rfl

/-- Settles O13: the common shape is `aluInstrRule`, and FL cleared and compared is the comparison's flag alone
(`setFl_compareFlag`). -/
theorem cmpSetsExactlyOneFlag : Obligations.CmpSetsExactlyOneFlag := by
  refine aluInstrRule .cmp .cmp .compare (·.setFl 0#8) (fun _ _ => rfl) (fun _ _ => rfl) rfl (fun _ _ _ => rfl)
    fun s a b => ?_
  simp only [alu, commitAlu_ok]
  rw [setFl_compareFlag, compareFlag_eq]
  rfl

/-! ### The ALU's operations (R140 to R144, R146) -/

/-- Settles O26: a step takes one of four faults, none of them the ALU's (`step_outcome`), or completes an instruction and is
left running or halted. -/
theorem unsupportedOperationUnreachable : Obligations.UnsupportedOperationUnreachable := by
  refine ⟨fun _ _ _ _ => rfl, fun s t hx => ?_⟩
  obtain ⟨hs, ⟨reason, hreason, rfl⟩ | ⟨i, -, hc⟩⟩ := step_outcome hx
  · rcases hreason with rfl | rfl | rfl | rfl <;> exact nofun
  · rcases hc.run_record.2 with hrun | ⟨-, hrun⟩ <;> simp [hrun, hs]

/-- A register write in the form the ALU's rules take: the frame, with the value named by reading it back. -/
theorem State.setReg_eq_set_reg (s : State) (a : RegIndex) (v : Byte) :
    s.setReg a v = { s with regs := s.regs.set a ((s.setReg a v).reg a) } := by
  rw [State.reg_setReg_same]
  rfl

/-- Settles O35: ADD, SUB and MUL write one register with the narrowed integer, and COMPARE sets a flag in a legal FL. -/
theorem aluOperations : Obligations.AluOperations := by
  intro a b s
  refine ⟨⟨_, rfl, s.setReg_eq_set_reg a _, ?_⟩, ⟨_, rfl, s.setReg_eq_set_reg a _, ?_⟩,
    ⟨_, rfl, s.setReg_eq_set_reg a _, ?_⟩, fun hf => ⟨_, rfl, ?_, ?_⟩⟩
  · rw [State.reg_setReg_same, mod256_add, BitVec.toNat_ofNat]
  · rw [State.reg_setReg_same, mod256_toNat]
  · rw [State.reg_setReg_same, mod256_mul, BitVec.toNat_ofNat]
  · rw [State.setFl_or_compareFlag hf]
  · rw [State.setFl_or_compareFlag hf, compareFlag_eq]

end AluInstructions

end Sys2Proof.Machine

/-! ### PUSH and POP (R160 to R164, D18) -/

namespace Sys2Proof.Machine

section PushPop

variable {s t u : State} {opA opB : Byte} {r a b : RegIndex}

/-- The faults of an instruction that checks a register operand, then the stack's range, then the next sequential PC (R208);
`moved` is the value that moving the stack pointer would take past `bound`. -/
theorem stackInstrFaults {h : Handler} {i : Instr} {moved : RegIndex → Byte} {bound : Byte} {k : RegIndex → Byte → Result}
    (hw : h.width = 2)
    (hexec : exec i s = withReg h opA s fun r => withStackRoom h (moved r == bound) s <| withNextPc h s (k r)) :
    (7 < opA.toNat → raisesFault s (exec i s) .invalidRegister h.opcode) ∧
    ∀ r : RegIndex, opA.toNat = r.val →
      (moved r = bound → raisesFault s (exec i s) .stackFault h.opcode) ∧
      (moved r ≠ bound → 256 ≤ s.pc.toNat + 2 → raisesFault s (exec i s) .pcOutOfRange h.opcode) := by
  rw [hexec, ← hw]
  refine ⟨raisesFault_withReg, fun r hr => ?_⟩
  rw [withReg_of_names hr]
  refine ⟨fun hm => raisesFault_withStackRoom (beq_iff_eq.2 hm), fun hm => ?_⟩
  rw [beq_eq_false_iff_ne.2 hm, withStackRoom_ok]
  exact raisesFault_withNextPc

/-! What a PUSH that completes leaves. -/

theorem Completes.reg_of_push (hc : Completes s (.push opA) t) (j : RegIndex) :
    t.reg j = if j = spIndex then s.pushAddr else s.reg j := by
  cases hc with
  | push => exact (s.reg_decSp j).trans (if_congr eq_comm rfl rfl)

theorem Completes.sp_of_push (hc : Completes s (.push opA) t) : t.sp = s.pushAddr :=
  (hc.reg_of_push spIndex).trans (if_pos rfl)

/-- The byte stored is the register as it is after the decrement. -/
theorem Completes.readByte_of_push (hc : Completes s (.push opA) t) (hm : s.mem.wf) (hr : opA.toNat = r.val) (addr : Nat) :
    t.mem.readByte addr = if addr = s.pushAddr.toNat then t.reg r else s.mem.readByte addr := by
  cases hc with
  | push k hk =>
    obtain rfl : k = r := Fin.ext (hk.symm.trans hr)
    rw [State.setPc_mem, State.storeTop_mem, State.sp_decSp, State.decSp_mem, Memory.readByte_writeByte hm]
    rfl

theorem Completes.loadTop_of_push (hc : Completes s (.push opA) t) (hm : s.mem.wf) (hr : opA.toNat = r.val) :
    t.loadTop = t.reg r := by
  rw [State.loadTop, State.memRead, hc.sp_of_push, hc.readByte_of_push hm hr, if_pos rfl]

/-- Settles O14: each fault is that of the check that fails first, and the effect is that of `Completes.push`, cell by cell
and register by register. -/
theorem pushStoresBelowTop : Obligations.PushStoresBelowTop := by
  refine ⟨fetchesWidth2_of_operandBytes (h := .push) (fun _ => rfl) fun _ => rfl, fun s opA => ?_⟩
  obtain ⟨hinvalid, hfaults⟩ := stackInstrFaults (s := s) (h := .push) (i := .push opA)
    (moved := fun _ => s.sp) (bound := 0#8) (k := fun r npc => .next ((s.decSp.storeTop (s.decSp.reg r)).setPc npc)) rfl rfl
  refine ⟨hinvalid, fun r hr => ⟨(hfaults r hr).1, (hfaults r hr).2, fun hsp hpc hm => ?_⟩⟩
  have hc := Completes.push r hr hsp hpc
  refine ⟨_, hc.exec_eq, hc.sp_of_push, State.pushAddr_succ hsp, fun j hj => ?_, fun addr => ?_, rfl, rfl, rfl, rfl, rfl⟩
  · rw [hc.reg_of_push, if_neg hj]
  · rw [hc.readByte_of_push hm hr, hc.reg_of_push]

/-! What a POP that completes leaves. -/

theorem Completes.reg_of_pop (hc : Completes s (.pop opA) t) (hr : opA.toNat = r.val) (j : RegIndex) :
    t.reg j = if j = spIndex then s.popped r + 1#8 else if j = r then s.loadTop else s.reg j := by
  cases hc with
  | pop k hk =>
    obtain rfl : k = r := Fin.ext (hk.symm.trans hr)
    have hload (j : RegIndex) : (s.setReg k s.loadTop).reg j = if k = j then s.loadTop else s.reg j := s.reg_setReg k j _
    calc ((s.setReg k s.loadTop).incSp.setPc (s.nextPc .pop)).reg j
        _ = if spIndex = j then (s.setReg k s.loadTop).sp + 1#8 else (s.setReg k s.loadTop).reg j := State.reg_incSp _ j
        _ = if spIndex = j then s.popped k + 1#8 else if k = j then s.loadTop else s.reg j := by
          rw [hload, State.sp, hload]
          rfl
        _ = _ := if_congr eq_comm rfl (if_congr eq_comm rfl rfl)

/-- Settles O15: each fault is that of the check that fails first, and the effect is that of `Completes.pop`, register by
register. -/
theorem popLoadsTop : Obligations.PopLoadsTop := by
  refine ⟨fetchesWidth2_of_operandBytes (h := .pop) (fun _ => rfl) fun _ => rfl, fun s opA => ?_⟩
  obtain ⟨hinvalid, hfaults⟩ := stackInstrFaults (s := s) (h := .pop) (i := .pop opA)
    (moved := s.popped) (bound := 255#8) (k := fun r npc => .next ((s.setReg r s.loadTop).incSp.setPc npc)) rfl rfl
  refine ⟨hinvalid, fun r hr => ⟨(hfaults r hr).1, (hfaults r hr).2, fun hsp hpc => ?_⟩⟩
  have hc := Completes.pop r hr hsp hpc
  have hreg := hc.reg_of_pop hr
  refine ⟨_, hc.exec_eq, (hreg spIndex).trans (if_pos rfl), fun hne => ?_, fun j hj hjr => ?_, rfl, rfl, rfl, rfl, rfl, rfl⟩
  · rw [hreg, if_neg hne, if_pos rfl]
    rfl
  · rw [hreg, if_neg hj, if_neg hjr]

/-! ### PUSH, then POP (R164) -/

theorem Completes.push_names (hc : Completes s (.push opA) t) : ∃ r : RegIndex, opA.toNat = r.val := by
  cases hc with
  | push r hr => exact ⟨r, hr⟩

theorem State.pushAddr_add_one (s : State) : s.pushAddr + 1#8 = s.sp := BitVec.sub_add_cancel s.sp 1#8

/-- PUSH a then POP b copies register `a` to register `b` and restores every other, unless just one of the two is the stack
pointer: the byte loaded is register `a` after the decrement, and the increment undoes the decrement. -/
theorem Completes.reg_of_push_pop (hpush : Completes s (.push opA) t) (hpop : Completes t (.pop opB) u) (hm : s.mem.wf)
    (ha : opA.toNat = a.val) (hb : opB.toNat = b.val) (hab : a = spIndex ↔ b = spIndex) (j : RegIndex) :
    u.reg j = if j = b then s.reg a else s.reg j := by
  have hload : t.loadTop = t.reg a := hpush.loadTop_of_push hm ha
  have hpopped : t.popped b + 1#8 = s.sp := by
    have htop : t.popped b = t.sp := by
      by_cases hbs : b = spIndex
      · rw [State.popped, if_pos hbs, hload, hab.2 hbs, State.sp]
      · rw [State.popped, if_neg hbs]
    rw [htop, hpush.sp_of_push, State.pushAddr_add_one]
  rw [hpop.reg_of_pop hb, hpopped, hload, hpush.reg_of_push, hpush.reg_of_push]
  by_cases hj : j = spIndex
  · subst hj
    rw [if_pos rfl]
    exact (ite_eq_right_iff.2 fun hbs => congrArg s.reg (hab.2 hbs.symm)).symm
  · rw [if_neg hj, if_neg hj]
    by_cases hjb : j = b
    · rw [if_pos hjb, if_pos hjb, if_neg (hab.not.2 (hjb ▸ hj))]
    · rw [if_neg hjb, if_neg hjb]

/-- Settles O36: the registers are `Completes.reg_of_push_pop`, for one register and for two other than the stack pointer; the
PUSH writes one cell and the POP none. -/
theorem pushThenPop : Obligations.PushThenPop := by
  intro s t u opA opB hm _ hxpush ht hxpop hu
  have hpush : Completes s (.push opA) t := exec_completes hxpush ht
  have hpop : Completes t (.pop opB) u := exec_completes hxpop hu
  refine ⟨fun hops => ?_, fun a b ha hb has hbs => ?_, fun addr haddr => ?_⟩
  · obtain ⟨a, ha⟩ := hpush.push_names
    have hreg := hpush.reg_of_push_pop hpop hm ha (hops ▸ ha) Iff.rfl
    exact regs_ext fun j => (hreg j).trans (ite_eq_right_iff.2 fun hja => congrArg s.reg hja.symm)
  · have hreg := hpush.reg_of_push_pop hpop hm ha hb (iff_of_false has hbs)
    exact ⟨(hreg b).trans (if_pos rfl), fun j hj => (hreg j).trans (if_neg hj)⟩
  · rw [hpop.mem_eq fun _ => ⟨nofun, nofun⟩, hpush.readByte_of_ne_pushAddr haddr]

end PushPop

end Sys2Proof.Machine

/-! ### CALL, RET and the jumps (R170 to R178) -/

namespace Sys2Proof.Machine

section ControlTransfer

variable {s t u : State} {opA : Byte} {r : RegIndex}

/-! What a CALL that completes leaves. -/

theorem Completes.sp_ne_of_call (hc : Completes s (.call opA) t) : s.sp ≠ 0#8 := by
  cases hc with
  | call _ _ hsp => exact hsp

theorem Completes.reg_of_call (hc : Completes s (.call opA) t) (j : RegIndex) :
    t.reg j = if j = spIndex then s.pushAddr else s.reg j := by
  cases hc with
  | call => exact (s.reg_decSp j).trans (if_congr eq_comm rfl rfl)

theorem Completes.sp_of_call (hc : Completes s (.call opA) t) : t.sp = s.pushAddr :=
  (hc.reg_of_call spIndex).trans (if_pos rfl)

/-- The target is the register as it is after the decrement. -/
theorem Completes.pc_of_call (hc : Completes s (.call opA) t) (hr : opA.toNat = r.val) : t.pc = t.reg r := by
  cases hc with
  | call k hk =>
    obtain rfl : k = r := Fin.ext (hk.symm.trans hr)
    rfl

theorem Completes.readByte_of_call (hc : Completes s (.call opA) t) (hm : s.mem.wf) (addr : Nat) :
    t.mem.readByte addr = if addr = s.pushAddr.toNat then s.pc + 2#8 else s.mem.readByte addr := by
  cases hc with
  | call =>
    rw [State.setPc_mem, State.storeTop_mem, State.sp_decSp, State.decSp_mem, Memory.readByte_writeByte hm]
    rfl

/-- Settles O16: each fault is that of the check that fails first, and the effect is that of `Completes.call`, cell by cell
and register by register. -/
theorem callPushesReturnAddress : Obligations.CallPushesReturnAddress := by
  refine ⟨fetchesWidth2_of_operandBytes (h := .call) (fun _ => rfl) fun _ => rfl, fun s opA => ?_⟩
  obtain ⟨hinvalid, hfaults⟩ := stackInstrFaults (s := s) (h := .call) (i := .call opA)
    (moved := fun _ => s.sp) (bound := 0#8) (k := fun r npc => .next ((s.decSp.storeTop npc).setPc (s.decSp.reg r))) rfl rfl
  refine ⟨hinvalid, fun r hr => ⟨(hfaults r hr).1, (hfaults r hr).2, fun hsp hpc hm => ?_⟩⟩
  have hc := Completes.call r hr hsp hpc
  refine ⟨_, hc.exec_eq, hc.sp_of_call, State.pushAddr_succ hsp, fun j hj => ?_, hc.readByte_of_call hm, ?_, rfl, rfl, rfl, rfl⟩
  · rw [hc.reg_of_call, if_neg hj]
  · rw [hc.pc_of_call hr, hc.reg_of_call]

/-- Settles O17: RET has no operand byte, and its one check is the stack's range. -/
theorem retPopsPc : Obligations.RetPopsPc := by
  refine ⟨fetchesWidth1_of_operandBytes (i := .ret) rfl, fun s => ⟨fun hsp => ?_, fun hsp => (Completes.ret hsp).exec_eq⟩⟩
  rw [exec, execRet]
  exact raisesFault_withStackRoom (beq_iff_eq.2 hsp)

/-- Settles O37: the decremented stack pointer is below 255, so the RET completes; it loads the return address the CALL stored,
and its increment undoes the decrement. -/
theorem callThenRet : Obligations.CallThenRet := by
  intro s t u opA hm _ hx ht hsp htop
  have hcall : Completes s (.call opA) t := exec_completes hx ht
  have hsp' : u.sp = s.pushAddr := hsp.trans hcall.sp_of_call
  have hroom : u.sp ≠ 255#8 := by
    have hsucc := State.pushAddr_succ hcall.sp_ne_of_call
    rw [hsp']
    bv_omega
  have hload : u.loadTop = s.pc + 2#8 :=
    calc u.memRead u.sp
        _ = t.mem.readByte t.sp.toNat := htop
        _ = s.pc + 2#8 := by rw [hcall.readByte_of_call hm, hcall.sp_of_call, if_pos rfl]
  have hinc : u.sp + 1#8 = s.sp := by rw [hsp', State.pushAddr_add_one]
  calc exec .ret u
      _ = .next { u with pc := u.loadTop, regs := u.regs.set spIndex (u.sp + 1#8) } := (Completes.ret hroom).exec_eq
      _ = .next { u with pc := s.pc + 2#8, regs := u.regs.set spIndex s.sp } := by rw [hload, hinc]

/-! The jumps. -/

/-- Settles O18: the effect is `Completes.jmp`, and the one check is that of the register operand. -/
theorem jmpReplacesPc : Obligations.JmpReplacesPc := by
  refine ⟨fetchesWidth2_of_operandBytes (h := .jmp) (fun _ => rfl) fun _ => rfl, fun s opA => ?_⟩
  refine ⟨fun hr => ?_, fun r hr => (Completes.jmp r hr).exec_eq⟩
  rw [exec, execJmp]
  exact raisesFault_withReg hr

/-- The shape of the rules R176 and R178: a jump taken where bit 0 of FL is `taken`, which checks its register operand whether
taken or not, and the next sequential PC only where it goes on there. -/
theorem conditionalJumpRule (h : Handler) (i : Byte → Instr) (taken : Bool) (hi : ∀ opA, (i opA).handler = h)
    (hops : ∀ opA, (i opA).operandBytes = [opA]) (hw : h.width = 2)
    (hexec : ∀ opA s, exec (i opA) s = withReg h opA s fun r =>
      if s.flagE = taken then .next (s.setPc (s.reg r)) else withNextPc h s fun npc => .next (s.setPc npc)) :
    fetchesWidth2 h.opcode i ∧
    ∀ (s : State) (opA : Byte),
      (7 < opA.toNat → raisesFault s (exec (i opA) s) .invalidRegister h.opcode) ∧
      ∀ r : RegIndex, opA.toNat = r.val →
        (s.flagE = taken → exec (i opA) s = .next { s with pc := s.reg r }) ∧
        (s.flagE = !taken → s.pc.toNat + 2 < 256 → exec (i opA) s = .next { s with pc := s.pc + 2#8 }) ∧
        (s.flagE = !taken → 256 ≤ s.pc.toNat + 2 → raisesFault s (exec (i opA) s) .pcOutOfRange h.opcode) := by
  refine ⟨fetchesWidth2_of_operandBytes hi hops, fun s opA => ?_⟩
  rw [hexec, ← hw]
  refine ⟨raisesFault_withReg, fun r hr => ?_⟩
  rw [withReg_of_names hr]
  refine ⟨fun hE => if_pos hE, fun hE hpc => ?_, fun hE hpc => ?_⟩
  · rw [if_neg (Bool.eq_not.1 hE), withNextPc_of_lt hpc, hw]
    rfl
  · rw [if_neg (Bool.eq_not.1 hE)]
    exact raisesFault_withNextPc hpc

/-- Settles O19: JEQ is the conditional jump taken where EQUAL is set. -/
theorem jeqJumpsIfEqualSet : Obligations.JeqJumpsIfEqualSet :=
  conditionalJumpRule .jeq .jeq true (fun _ => rfl) (fun _ => rfl) rfl fun _ _ => rfl

/-- Settles O20: JNE is the conditional jump taken where EQUAL is clear. -/
theorem jneJumpsIfEqualClear : Obligations.JneJumpsIfEqualClear := by
  refine conditionalJumpRule .jne .jne false (fun _ => rfl) (fun _ => rfl) rfl fun opA s => ?_
  rw [exec, execJne]
  cases s.flagE <;> rfl

end ControlTransfer

end Sys2Proof.Machine

/-! ### Faults (R200 to R215) -/

namespace Sys2Proof.Machine

section Exceptions

variable {s t : State} {h : Handler} {i : Instr} {k : Result} {f : Option FaultReason}

/-- What completes in a running machine ends running or halted. -/
theorem Completes.run_ne_faulted (hc : Completes s i t) (hs : s.run = .running) (reason : FaultReason) :
    t.run ≠ .faulted reason := by
  rcases hc.run_record.2 with hrun | ⟨-, hrun⟩ <;> simp [hrun, hs]

/-- A step that ends `Faulted` took one of the four faults of a step, and did nothing else. -/
theorem step_faulted {reason : FaultReason} (hx : step s = .next t) (ht : t.run = .faulted reason) :
    (reason = .unknownOpcode ∨ handlerFault reason) ∧ t = s.takeFault reason s.ir := by
  obtain ⟨hs, ⟨reason', hreason, rfl⟩ | ⟨i, -, hc⟩⟩ := step_outcome hx
  · cases ht
    exact ⟨hreason, rfl⟩
  · exact absurd ht (hc.run_ne_faulted hs reason)

/-- Settles O24: a step that ends faulted is `takeFault` alone (`step_faulted`). -/
theorem faultsArePrecise : Obligations.FaultsArePrecise := by
  intro s t reason hx ht
  obtain ⟨-, rfl⟩ := step_faulted hx ht
  exact ⟨s.sameData_takeFault reason s.ir, rfl⟩

/-- Settles O27: the four faults of a step (`step_faulted`) are none of the Loader's. -/
theorem stepRaisesNoLoaderFault : Obligations.StepRaisesNoLoaderFault := by
  intro s t hx
  refine ⟨fun ht => ?_, fun ht => ?_, fun ht => ?_⟩ <;> simpa [handlerFault] using (step_faulted hx ht).1

/-! The order of the faults (R208): an outcome's fault is followed through the checks of an instruction, and the result is
compared with `firstFault`. -/

/-- The outcome `o` ends `Faulted(reason)` for `some reason`, and `Running` or `Halted` for `none`. -/
def endsWith (o : Result) : Option FaultReason → Prop
  | some reason => ∃ t, o = .next t ∧ t.run = .faulted reason
  | none => ∃ t, o = .next t ∧ (t.run = .running ∨ t.run = .halted)

/-- How an outcome ends is determined. -/
theorem endsWith.fault_iff {o : Result} (ho : endsWith o f) (reason : FaultReason) :
    (∃ t, o = .next t ∧ t.run = .faulted reason) ↔ f = some reason := by
  cases f with
  | some reason' =>
    obtain ⟨t, rfl, ht⟩ := ho
    simp [ht]
  | none =>
    obtain ⟨t, rfl, ht | ht⟩ := ho <;> simp [ht]

theorem endsWith_raise (reason : FaultReason) : endsWith (raise reason h s) (some reason) := ⟨_, rfl, rfl⟩

theorem endsWith_effect (hs : s.run = .running) (ht : t.run = s.run) : endsWith (.next t) none :=
  ⟨t, rfl, .inl (ht.trans hs)⟩

theorem namesRegister_of_names {operand : Byte} {r : RegIndex} (hr : operand.toNat = r.val) :
    namesRegister operand = true := decide_eq_true (hr ▸ r.isLt)

theorem namesRegister_eq_false_iff {operand : Byte} : namesRegister operand = false ↔ 7 < operand.toNat :=
  decide_eq_false_iff_not.trans Nat.not_lt

theorem withReg_endsWith {operand : Byte} {k : RegIndex → Result}
    (hk : ∀ r : RegIndex, operand.toNat = r.val → endsWith (k r) f) :
    endsWith (withReg h operand s k) (if namesRegister operand then f else some .invalidRegister) := by
  rcases operand_cases operand with ⟨r, hr⟩ | hr
  · rw [withReg_of_names hr, if_pos (namesRegister_of_names hr)]
    exact hk r hr
  · rw [withReg_of_above hr, if_neg (Bool.not_eq_true _ ▸ namesRegister_eq_false_iff.2 hr)]
    exact endsWith_raise _

theorem withRegs_endsWith {opA opB : Byte} {k : RegIndex → RegIndex → Result} (hk : ∀ a b, endsWith (k a b) f) :
    endsWith (withRegs h opA opB s k)
      (if namesRegister opA && namesRegister opB then f else some .invalidRegister) := by
  simp only [Bool.and_eq_true, ite_and]
  exact withReg_endsWith fun a _ => withReg_endsWith fun b _ => hk a b

theorem withStackRoom_endsWith {leaves : Bool} (hk : endsWith k f) :
    endsWith (withStackRoom h leaves s k) (if leaves then some .stackFault else f) := by
  cases leaves
  · exact hk
  · exact endsWith_raise _

theorem withNextPc_endsWith {k : Byte → Result} (hk : ∀ npc, endsWith (k npc) none) :
    endsWith (withNextPc h s k) (if 256 ≤ s.pc.toNat + h.width then some .pcOutOfRange else none) := by
  rcases Nat.lt_or_ge (s.pc.toNat + h.width) 256 with hlt | hge
  · rw [withNextPc_of_lt hlt, if_neg (by omega)]
    exact hk _
  · rw [withNextPc_of_le hge, if_pos hge]
    exact endsWith_raise _

/-- The fault of an instruction whose bytes have been fetched: the last three checks of R208. -/
def checksFault (i : Instr) (s : State) : Option FaultReason :=
  if i.wellFormed then
    if stackLeavesRange i.handler s then some .stackFault
    else if usesNextPc i.handler s then if 256 ≤ s.pc.toNat + i.handler.width then some .pcOutOfRange else none
    else none
  else some .invalidRegister

/-- An instruction fetched lies in memory whole, and its operand byte number `k`, from 0, at `pc + 1 + k`. -/
theorem State.operands_of_fetch_ok (hf : s.fetch = .ok i) :
    s.pc.toNat + i.handler.width ≤ 256 ∧
      ∀ (k : Nat) (b : Byte), i.operandBytes[k]? = some b → s.memRead (s.pc + BitVec.ofNat 8 (1 + k)) = b := by
  rcases s.fetch_cases with ⟨-, he⟩ | ⟨h, -, ⟨-, he⟩ | ⟨hfit, j, rfl, hops, he⟩⟩ <;> rw [he] at hf <;> cases hf
  refine ⟨hfit, fun k b hb => ?_⟩
  have hlen := i.operandBytes_length
  obtain ⟨hk, -⟩ := List.getElem?_eq_some_iff.1 hb
  rw [hops, s.mem.bytesFrom_eq_map (by omega), List.getElem?_map, List.getElem?_range (by omega)] at hb
  rw [s.memRead_pc_add (by omega), ← Nat.add_assoc]
  exact Option.some.inj hb

/-- A register operand above 7 is the byte at `pc + 1`, or of two register operands the one at `pc + 2`. -/
theorem State.not_wellFormed_iff (hf : s.fetch = .ok i) :
    ¬ i.wellFormed ↔ (2 ≤ i.handler.width ∧ 7 < (s.memRead (s.pc + 1#8)).toNat) ∨
      (i.handler ∈ [Handler.add, .mul, .cmp] ∧ 7 < (s.memRead (s.pc + 2#8)).toNat) := by
  obtain ⟨-, hops⟩ := State.operands_of_fetch_ok hf
  rw [Bool.not_eq_true]
  cases i
  case hlt | ret => simp [Instr.wellFormed, Instr.handler, Handler.width]
  case ldi opA _ | prn opA | push opA | pop opA | call opA | jmp opA | jeq opA | jne opA =>
    have hA : s.memRead (s.pc + 1#8) = opA := hops 0 opA rfl
    simp [hA, Instr.wellFormed, Instr.handler, Handler.width, namesRegister_eq_false_iff]
  case add opA opB | mul opA opB | cmp opA opB =>
    have hA : s.memRead (s.pc + 1#8) = opA := hops 0 opA rfl
    have hB : s.memRead (s.pc + 2#8) = opB := hops 1 opB rfl
    simp [hA, hB, Instr.wellFormed, Instr.handler, Handler.width, namesRegister_eq_false_iff, Bool.and_eq_false_iff,
      -Bool.and_eq_false_imp]

/-- After a fetch `firstFault` is left with the last three checks: the opcode is known and the operand bytes lie in memory. -/
theorem firstFault_of_fetch_ok (hf : s.fetch = .ok i) : firstFault s = checksFault i s := by
  obtain ⟨hfit, -⟩ := State.operands_of_fetch_ok hf
  have hd : dispatchTable (s.memRead s.pc) = some i.handler := dispatchTable_eq_some.2 (State.ir_of_fetch_ok hf).symm
  have hpc : s.pc.toNat + i.handler.width = 256 ↔ 256 ≤ s.pc.toNat + i.handler.width := by omega
  simp only [firstFault, hd, if_neg (Nat.not_lt.2 hfit)]
  rw [← ite_or, if_congr (State.not_wellFormed_iff hf).symm rfl rfl, ite_not,
    if_congr (and_congr_right fun _ => hpc) rfl rfl, ite_and, checksFault]

/-- The table's reading of POP's stack range, from memory at `pc + 1`, is that of the register POP names. -/
theorem stackLeavesRange_pop {opA : Byte} {r : RegIndex} (hf : s.fetch = .ok (.pop opA)) (hr : opA.toNat = r.val) :
    stackLeavesRange .pop s = (s.popped r == 255#8) := by
  have hA : s.memRead (s.pc + 1#8) = opA := (State.operands_of_fetch_ok hf).2 0 opA rfl
  have hsp : s.memRead (s.pc + 1#8) = 7#8 ↔ r = spIndex := by
    rw [hA, ← BitVec.toNat_inj, hr, Fin.ext_iff]
    rfl
  rw [stackLeavesRange, if_congr hsp rfl rfl]
  rfl

/-- An instruction fetched makes its checks in the order of `checksFault`, and what passes them all completes. -/
theorem exec_endsWith (hs : s.run = .running) (hf : s.fetch = .ok i) : endsWith (exec i s) (checksFault i s) := by
  have effect {u : State} (hu : u.run = s.run) : endsWith (.next u) none := endsWith_effect hs hu
  cases i <;> rw [exec]
  case ldi | prn => exact withReg_endsWith fun _ _ => withNextPc_endsWith fun _ => effect (by rfl)
  case hlt => exact ⟨_, rfl, .inr rfl⟩
  case add | mul | cmp => exact withRegs_endsWith fun _ _ => withNextPc_endsWith fun _ => effect (by rfl)
  case push | call =>
    exact withReg_endsWith fun _ _ => withStackRoom_endsWith <| withNextPc_endsWith fun _ => effect (by rfl)
  case pop =>
    exact withReg_endsWith fun r hr => stackLeavesRange_pop hf hr ▸
      withStackRoom_endsWith (withNextPc_endsWith fun _ => effect (by rfl))
  case ret => exact withStackRoom_endsWith (effect (by rfl))
  case jmp => exact withReg_endsWith fun _ _ => effect (by rfl)
  case jeq =>
    refine withReg_endsWith fun _ _ => ?_
    rw [usesNextPc.eq_def]
    cases s.flagE
    · exact withNextPc_endsWith fun _ => effect (by rfl)
    · exact effect (by rfl)
  case jne =>
    refine withReg_endsWith fun _ _ => ?_
    rw [usesNextPc.eq_def]
    cases s.flagE
    · exact effect (by rfl)
    · exact withNextPc_endsWith fun _ => effect (by rfl)

/-- A running machine's step ends as `firstFault` says. -/
theorem step_endsWith (hs : s.run = .running) : endsWith (step s) (firstFault s) := by
  rcases s.fetch_cases with ⟨hd, hf⟩ | ⟨h, hir, ⟨hpc, hf⟩ | ⟨-, i, -, -, hf⟩⟩
  · have hfirst : firstFault s = some .unknownOpcode := by
      rw [firstFault, show dispatchTable (s.memRead s.pc) = none from hd]
    rw [hfirst, step_of_fetch_error hs hf]
    exact ⟨_, rfl, rfl⟩
  · have hd : dispatchTable (s.memRead s.pc) = some h := dispatchTable_eq_some.2 hir.symm
    have hfirst : firstFault s = some .pcOutOfRange := by simp only [firstFault, hd, if_pos hpc]
    rw [hfirst, step_of_fetch_error hs hf]
    exact ⟨_, rfl, rfl⟩
  · rw [firstFault_of_fetch_ok hf, step_of_fetch_ok hs hf]
    exact exec_endsWith hs hf

/-- Settles O25: the step ends as `firstFault` says (`step_endsWith`). -/
theorem faultPriority : Obligations.FaultPriority := by
  intro s hs
  have hends := step_endsWith hs
  refine ⟨hends.fault_iff, fun hnone => ?_⟩
  rwa [hnone] at hends

/-- No check after dispatch raises `UnknownOpcode`. -/
theorem dispatchTable_of_firstFault_unknownOpcode (hfirst : firstFault s = some .unknownOpcode) :
    dispatchTable (s.memRead s.pc) = none := by
  rw [firstFault] at hfirst
  split at hfirst
  · assumption
  · split_ifs at hfirst <;> cases hfirst

theorem State.exitStatus_of_faulted {reason : FaultReason} (ht : t.run = .faulted reason) :
    ∃ n, t.exitStatus = some n ∧ n ≠ 0 := by
  rw [State.exitStatus, ht]
  exact ⟨_, rfl, Nat.succ_ne_zero _⟩

/-- Settles O6: an unknown opcode is a fetch fault, and by `FaultPriority` no other step raises it. -/
theorem unknownOpcodeExactly : Obligations.UnknownOpcodeExactly := by
  intro s hs
  constructor
  · intro hunknown
    rw [step_of_fetch_error hs (State.fetch_of_unknown (dispatchTable_eq_none.2 hunknown))]
    exact raisesFault_takeFault s _ _
  · intro t hx ht
    have hfirst : firstFault s = some .unknownOpcode := ((faultPriority s hs).1 _).1 ⟨t, hx, ht⟩
    exact ⟨dispatchTable_eq_none.1 (dispatchTable_of_firstFault_unknownOpcode hfirst), State.exitStatus_of_faulted ht⟩

end Exceptions

end Sys2Proof.Machine

/-! ### Reset, the launch state and boot (R230 to R236, R262, R264, R216) -/

namespace Sys2Proof.Machine

section ResetAndBoot

variable {s : State}

/-! What reset leaves (R231, D6). -/

/-- Reset sets register 7 to the initial stack pointer in a file of equal registers. -/
theorem State.reset_reg (j : RegIndex) : State.reset.reg j = if spIndex = j then spReset else regReset := by
  have hj : spIndex.val = j.val ↔ spIndex = j := Fin.ext_iff.symm
  simp only [State.reg, State.reset, Fin.getElem_fin, Vector.getElem_set, Vector.getElem_replicate, hj]

/-- Settles O41: the registers are `State.reset_reg`, memory lists no cell, and every other field is a literal. -/
theorem resetState : Obligations.ResetState :=
  have hother (j : RegIndex) (hj : j ≠ spIndex) : State.reset.reg j = 0#8 := (State.reset_reg j).trans (if_neg hj.symm)
  have hsp : State.reset.reg spIndex = 243#8 := (State.reset_reg spIndex).trans (if_pos rfl)
  ⟨fun _ => rfl, hother, hsp, rfl, rfl, rfl, rfl, rfl, rfl⟩

/-! The invariant, from reset to what the Loader leaves. -/

/-- Settles O22: memory is empty, FL is 0, and the machine runs with no record. -/
theorem resetMeetsInvariant : Obligations.ResetMeetsInvariant :=
  ⟨State.reset_mem_wf, .inl rfl, rfl⟩

/-- Of memory the invariant asks the canonical form alone. -/
theorem State.Inv.withMem (h : s.Inv) {m : Memory} (hm : m.wf) : State.Inv { s with mem := m } :=
  ⟨hm, h.flOk, h.recAgrees⟩

/-- Taking a Loader fault writes the record of its reason and keeps memory and FL. -/
theorem State.Inv.takeLoaderFault (h : s.Inv) (reason : FaultReason) : (s.takeLoaderFault reason).Inv :=
  ⟨h.memWf, h.flOk, 0#8, none, rfl⟩

/-- Settles O23: whether the load succeeds or not, the Loader replaces the memory of reset by a canonical one; a failed load
then takes a Loader fault. -/
theorem bootMeetsInvariant : Obligations.BootMeetsInvariant := by
  intro program
  cases hload : loadImage program with
  | ok image =>
    rw [boot_of_ok hload]
    exact resetMeetsInvariant.withMem (initialFill_wf image)
  | error reason =>
    rw [boot_of_error hload]
    exact (resetMeetsInvariant.withMem (failedLoadMemory_wf program)).takeLoaderFault reason

/-! The launch state of an image (R236). -/

theorem launch_nil : State.launch [] = State.reset := rfl

/-- Reset's memory reads 0 at the PC, which is no opcode. -/
theorem step_reset_raisesFault : raisesFault State.reset (step State.reset) .unknownOpcode 0#8 := by
  have hunknown : ∀ h : Handler, h.opcode ≠ 0#8 := dispatchTable_eq_none.1 rfl
  exact (unknownOpcodeExactly State.reset rfl).1 hunknown

/-- Settles O42: the cells are `readByte_initialFill`, and the empty image leaves the machine as reset does. -/
theorem launchState : Obligations.LaunchState := by
  refine ⟨fun image hl => ⟨fun k _ => readByte_initialFill hl k, rfl⟩, ?_⟩
  rw [launch_nil]
  exact step_reset_raisesFault

end ResetAndBoot

end Sys2Proof.Machine

/-! ### The host interface: program text, load and exit status (R261 to R267, R201, R204, R216) -/

namespace Sys2Proof.Machine

section HostInterface

variable {s : State} {line content : List Char} {lines : List (List Char)}

/-! What one line is (R263, R264, D22). -/

theorem cutComment_append_tail (line : List Char) :
    ∃ tail, line = cutComment line ++ tail ∧ (tail = [] ∨ tail.head? = some '#') := by
  refine ⟨line.dropWhile (· ≠ '#'), List.takeWhile_append_dropWhile.symm, ?_⟩
  by_cases htail : line.dropWhile (· ≠ '#') = []
  · exact .inl htail
  · have hhead := List.head_dropWhile_not (· ≠ '#') htail
    exact .inr (List.head?_eq_some_head htail ▸ congrArg some (by simpa using hhead))

theorem hash_not_mem_cutComment (line : List Char) : '#' ∉ cutComment line := fun hm => by
  simpa using List.mem_takeWhile_imp hm

theorem strip_head?_not_blank (line : List Char) : ∀ c ∈ (strip line).head?, isBlankChar c = false := by
  intro c hc
  obtain ⟨rest, hrest⟩ : strip line <+: line.dropWhile isBlankChar := List.rdropWhile_prefix ..
  have hfirst : (line.dropWhile isBlankChar).head? = some c := hrest ▸ List.mem_head?_append_of_mem_head? hc
  simpa [hfirst] using List.head?_dropWhile_not isBlankChar line

theorem strip_getLast?_not_blank (line : List Char) : ∀ c ∈ (strip line).getLast?, isBlankChar c = false := by
  intro c hc
  have hlast : ((line.dropWhile isBlankChar).reverse.dropWhile isBlankChar).head? = some c := by
    rwa [strip, List.getLast?_reverse] at hc
  simpa [hlast] using List.head?_dropWhile_not isBlankChar (line.dropWhile isBlankChar).reverse

/-- What strip takes away is white space, before and after. -/
theorem exists_blanks_around_strip (line : List Char) :
    ∃ before after, line = before ++ strip line ++ after ∧ ∀ c ∈ before ++ after, isBlankChar c = true := by
  refine ⟨line.takeWhile isBlankChar, (line.dropWhile isBlankChar).rtakeWhile isBlankChar, ?_, fun c hc => ?_⟩
  · rw [List.append_assoc]
    calc line = line.takeWhile isBlankChar ++ line.dropWhile isBlankChar := List.takeWhile_append_dropWhile.symm
      _ = _ := congrArg _ List.rdropWhile_append_rtakeWhile.symm
  · exact (List.mem_append.1 hc).elim List.mem_takeWhile_imp List.mem_rtakeWhile_imp

/-- The converse of `strip_cutComment`: what the Loader leaves of a line is its content. -/
theorem lineContent_strip_cutComment (line : List Char) : lineContent line (strip (cutComment line)) := by
  obtain ⟨tail, hline, htail⟩ := cutComment_append_tail line
  obtain ⟨before, after, hcut, hblank⟩ := exists_blanks_around_strip (cutComment line)
  have hhash : '#' ∉ strip (cutComment line) := fun hm =>
    hash_not_mem_cutComment line (hcut ▸ List.mem_append_left _ (List.mem_append_right _ hm))
  exact ⟨before, after, tail, hcut ▸ hline, hblank, htail, hhash, strip_head?_not_blank _, strip_getLast?_not_blank _⟩

theorem parseLine_of_spellsBinary (hc : lineContent line content) {v : Byte} (hv : spellsBinary content v.toNat) :
    parseLine line = .literal v := by
  have ⟨hne, _, hvalue⟩ := hv
  have hlit : isLiteral content = true := isLiteral_iff.2 ⟨v, hv⟩
  have hbyte : BitVec.ofNat 8 (binaryValue content) = v := by
    rw [binaryValue_eq_ofDigits, hvalue, BitVec.ofNat_toNat, BitVec.setWidth_eq]
  simp [parseLine, strip_cutComment hc, hne, hlit, hbyte]

/-! The usual spelling of a byte. -/

theorem ofDigits_testBit (x n : Nat) : Nat.ofDigits 2 ((List.range n).map fun k => (x.testBit k).toNat) = x % 2 ^ n := by
  induction n with
  | zero => simp [Nat.mod_one]
  | succ n ih =>
    rw [List.range_succ, List.map_append, Nat.ofDigits_append, ih, List.length_map, List.length_range, Nat.mod_pow_succ,
      List.map_singleton, Nat.ofDigits_singleton, Nat.toNat_testBit]

/-- The digits of a byte, read from the last, are its bits from bit 0 up. -/
theorem spellsBinary_binaryDigits (v : Byte) : spellsBinary (binaryDigits v) v.toNat := by
  refine ⟨binaryDigits_ne_nil v, fun c hc => mem_binaryDigits hc, ?_⟩
  have hdigit (b : Bool) : (if (if b then '1' else '0') = '1' then 1 else 0) = b.toNat := by cases b <;> rfl
  have hbits : ((binaryDigits v).reverse.map fun c => if c = '1' then 1 else 0) =
      (List.range 8).map fun k => (v.toNat.testBit k).toNat := by
    rw [binaryDigits, ← List.map_reverse, List.map_map]
    exact List.map_congr_left fun k _ => hdigit (v.getLsbD k)
  rw [hbits, ofDigits_testBit, Nat.mod_eq_of_lt v.isLt]

/-- Settles O44: the content of a line is what the Loader cuts and strips it to, and it is a literal when it spells a byte
(`isLiteral_iff`). -/
theorem lineParsing : Obligations.LineParsing := by
  refine ⟨fun line => ⟨_, lineContent_strip_cutComment line⟩, fun line content hc => ⟨?_, ?_, ?_⟩,
    fun v => ⟨rfl, spellsBinary_binaryDigits v⟩⟩
  · intro hnil
    exact parseLine_of_blank ((strip_cutComment hc).trans hnil)
  · intro v hv
    exact parseLine_of_spellsBinary hc hv
  · intro hne hnone
    have hlit : isLiteral content = false := Bool.eq_false_iff.2 fun h => (isLiteral_iff.1 h).elim hnone
    rw [← strip_cutComment hc] at hne hlit
    exact parseLine_of_not_literal hne hlit

/-! Which texts load (R262, R264, R265, D11). -/

theorem textOf_cons_cons (line next : List Char) (rest : List (List Char)) :
    textOf (line :: next :: rest) = line ++ lineEnd :: textOf (next :: rest) := by
  rw [textOf, List.intercalate_cons_cons, List.append_assoc]
  rfl

/-- A line end begins a new first line, and any other character extends the first line. -/
theorem exists_areLines_textOf (text : List Char) : ∃ lines, areLines lines ∧ textOf lines = text := by
  induction text with
  | nil => exact ⟨[[]], by simp [areLines], rfl⟩
  | cons c cs ih =>
    obtain ⟨lines, ⟨hne, hall⟩, rfl⟩ := ih
    obtain ⟨line, rest, rfl⟩ := List.exists_cons_of_ne_nil hne
    by_cases hc : c = lineEnd
    · subst hc
      exact ⟨[] :: line :: rest, ⟨by simp, by simpa using hall⟩, textOf_cons_cons ..⟩
    · have hline : lineEnd ∉ c :: line := by simpa [Ne.symm hc] using hall line List.mem_cons_self
      refine ⟨(c :: line) :: rest, ⟨by simp, List.forall_mem_cons.2 ⟨hline, (List.forall_mem_cons.1 hall).2⟩⟩, ?_⟩
      cases rest with
      | nil => simp [textOf]
      | cons next rest => simp [textOf_cons_cons]

/-- The load of a text, by what its lines are. -/
theorem loadImage_textOf (hl : areLines lines) :
    loadImage (some (textOf lines)) =
      if LineKind.malformed ∈ lines.map parseLine then
        if 256 < (literalBytes (lines.map parseLine)).length ∧ Config.reportsTooLargeFirst (textOf lines) then
          .error .programTooLarge
        else .error .malformedProgram
      else if 256 < (literalBytes (lines.map parseLine)).length then .error .programTooLarge
      else .ok (literalBytes (lines.map parseLine)) := by
  simp only [loadImage, textMalformed_iff, textLiterals_eq, textLines_textOf hl, Bool.and_eq_true, decide_eq_true_eq,
    Config.memSize]

/-- Settles O45: of the branches of `loadImage_textOf` one alone answers an image. -/
theorem loaderReadsEveryLine : Obligations.LoaderReadsEveryLine := by
  refine ⟨exists_areLines_textOf, fun lines hl image => ⟨?_, boot_of_ok⟩⟩
  rw [loadImage_textOf hl]
  constructor
  · intro h
    split_ifs at h with hbad hboth hlong
    cases h
    exact ⟨hbad, rfl, not_lt.1 hlong⟩
  · rintro ⟨hgood, rfl, hlen⟩
    rw [if_neg hgood, if_neg (not_lt.2 hlen)]

/-! The text of an image. -/

/-- The lines of the text of an image: its literals, and an empty line after the last line end. -/
def programLines (image : List Byte) : List (List Char) := image.map binaryDigits ++ [[]]

theorem programLines_cons (v : Byte) (image : List Byte) :
    programLines (v :: image) = binaryDigits v :: programLines image := rfl

theorem programLines_ne_nil (image : List Byte) : programLines image ≠ [] := by simp [programLines]

theorem areLines_programLines (image : List Byte) : areLines (programLines image) := by
  have hdigits (v : Byte) : lineEnd ∉ binaryDigits v := fun hm => absurd (mem_binaryDigits hm) (by decide)
  exact ⟨programLines_ne_nil image, by simp [programLines, or_imp, forall_and, hdigits]⟩

theorem textOf_programLines (image : List Byte) : textOf (programLines image) = programText image := by
  induction image with
  | nil => rfl
  | cons v image ih =>
    obtain ⟨next, rest, hlines⟩ := List.exists_cons_of_ne_nil (programLines_ne_nil image)
    rw [programLines_cons, hlines, textOf_cons_cons, ← hlines, ih]
    simp [programText]

theorem parseLine_binaryDigits (v : Byte) : parseLine (binaryDigits v) = .literal v := by
  have hdigits := spellsBinary_binaryDigits v
  refine parseLine_of_spellsBinary ⟨[], [], [], by simp, by simp, .inl rfl, ?_, ?_, ?_⟩ hdigits
  · exact fun hm => absurd (mem_binaryDigits hm) (by decide)
  · exact fun c hc => binaryDigits_not_blank c (List.mem_of_mem_head? hc)
  · exact fun c hc => binaryDigits_not_blank c (List.mem_of_mem_getLast? hc)

theorem map_parseLine_programLines (image : List Byte) :
    (programLines image).map parseLine = image.map .literal ++ [.blank] := by
  have hkinds : parseLine ∘ binaryDigits = LineKind.literal := funext parseLine_binaryDigits
  rw [programLines, List.map_append, List.map_map, hkinds]
  rfl

theorem literalBytes_map_literal (image : List Byte) : literalBytes (image.map .literal ++ [.blank]) = image := by
  induction image with
  | nil => rfl
  | cons v image ih => exact congrArg (v :: ·) ih

/-- Settles O43: the lines of the text are the literals of the image and an empty one, so by `LoaderReadsEveryLine` it loads. -/
theorem programTextBootsImage : Obligations.ProgramTextBootsImage := by
  intro image hlen
  obtain ⟨hload, hboot⟩ := loaderReadsEveryLine.2 _ (areLines_programLines image) image
  rw [← textOf_programLines]
  refine hboot (hload.2 ?_)
  rw [map_parseLine_programLines, literalBytes_map_literal]
  exact ⟨by simp, rfl, hlen⟩

/-! The loads that fail (R201, R204, R216, log 16, log 17). -/

theorem failsToBoot_of_error {program : Option (List Char)} {reason : FaultReason}
    (hload : loadImage program = .error reason) : failsToBoot program reason := by
  have hboot := boot_of_error hload
  have hrun : (boot program).run = .faulted reason := by rw [hboot, State.takeLoaderFault_run]
  refine ⟨hload, by rw [hboot]; rfl, fun t hx => ?_⟩
  have hrunning : (boot program).run = .running := (stepExistsExactlyWhileRunning _).1 ⟨t, hx⟩
  cases hrun.symm.trans hrunning

/-- Settles O46: of every load that fails `failsToBoot_of_error` says what it leaves, and `loadImage_textOf` says which fail. -/
theorem loaderFaults : Obligations.LoaderFaults := by
  refine ⟨failsToBoot_of_error rfl, fun lines hl => ⟨fun hbad hlen => ?_, fun hgood hlong => ?_, fun hbad hlong => ?_⟩,
    fun _ _ => failsToBoot_of_error⟩
  · refine failsToBoot_of_error ?_
    rw [loadImage_textOf hl, if_pos hbad, if_neg fun h => absurd h.1 (not_lt.2 hlen)]
  · refine failsToBoot_of_error ?_
    rw [loadImage_textOf hl, if_neg hgood, if_pos hlong]
  · have hload := loadImage_textOf hl
    rw [if_pos hbad] at hload
    split_ifs at hload
    · exact .inr (failsToBoot_of_error hload)
    · exact .inl (failsToBoot_of_error hload)

/-! The exit status (R267). -/

theorem State.exitStatus_of_running (hs : s.run = .running) : s.exitStatus = none := by rw [State.exitStatus, hs]

theorem State.exitStatus_of_halted (hs : s.run = .halted) : s.exitStatus = some 0 := by rw [State.exitStatus, hs]

/-- Settles O47: the exit status of each run state. -/
theorem exitStatusZeroExactlyOnHalt : Obligations.ExitStatusZeroExactlyOnHalt := by
  intro s
  cases hs : s.run with
  | running => simp [State.exitStatus_of_running hs]
  | halted => simp [State.exitStatus_of_halted hs]
  | faulted reason =>
    obtain ⟨n, hn, hne⟩ := State.exitStatus_of_faulted hs
    simp [hn, hne]

end HostInterface

end Sys2Proof.Machine

/-! ### The words of the Encoding lines (R81, R82, R89) -/

namespace Sys2Proof

theorem decode_encode (i : Instr) : decode (encode i) = .ok i := (decodeInvertsEncode _ i).2 List.prefix_rfl

/-- R89: a byte that is no handler's opcode is rejected whatever follows it. -/
theorem decode_cons_of_unknown {ir : Byte} (hunknown : ∀ h : Handler, h.opcode ≠ ir) (rest : List Byte) :
    decode (ir :: rest) = .error (.unknownOpcode ir) := by
  simp only [decode, dispatchTable_eq_none.2 hunknown]

/-- Settles O2: each of the seven words is the encoding of its instruction, and the byte of the eighth is no opcode. -/
theorem specWordsDecode : Obligations.SpecWordsDecode := by
  have hunknown : ∀ h : Handler, h.opcode ≠ 0b10100001#8 := fun h => by cases h <;> decide
  exact ⟨decode_encode (.ldi 3#8 255#8), decode_encode (.prn 7#8), decode_encode .hlt, decode_encode (.mul 1#8 2#8),
    decode_encode (.pop 2#8), decode_encode .ret, decode_encode (.jne 5#8), decode_cons_of_unknown hunknown _⟩

end Sys2Proof
